-- ==== Sys2Proof/Word.lean ====
section
/-! DEFINITION. The quantities of 00_scope.md R6: bytes, 16-bit words, and the 4-bit and 12-bit instruction fields. All
are unsigned; widths are fixed by R5. -/

namespace Sys2Proof

/-- A byte: 8 bits (R6). -/
abbrev Byte := BitVec 8

/-- A word: 16 bits; used for the instruction word, `I`, `pc` and stack slots (R6). -/
abbrev Word := BitVec 16

/-- A 4-bit field: a register index `x` or `y`, the row count `n`, a key number (R61). -/
abbrev Nibble := BitVec 4

/-- The 12-bit address immediate `nnn` (R61). -/
abbrev Imm12 := BitVec 12

end Sys2Proof
end

