-- ==== Sys2Proof/Syntax.lean ====
section
/-! DEFINITION. The instructions: the 34 rows of 30_encoding.md R64 in the table's order, and the no-op of 40_cycle.md
R83, which stands for every undefined word (R66). -/

namespace Sys2Proof

/-- One constructor per row of spec/opcode_table.json. Operands are the fields of R61. `shr` and `shl` carry the `y`
field, which is decoded and ignored (R62); `nop` carries the undefined word it was decoded from (R66). -/
inductive Instr where
  | cls
  | ret
  | jp (nnn : Imm12)
  | call (nnn : Imm12)
  | seImm (x : Nibble) (kk : Byte)
  | sneImm (x : Nibble) (kk : Byte)
  | seReg (x y : Nibble)
  | ldImm (x : Nibble) (kk : Byte)
  | addImm (x : Nibble) (kk : Byte)
  | ldReg (x y : Nibble)
  | orReg (x y : Nibble)
  | andReg (x y : Nibble)
  | xorReg (x y : Nibble)
  | addReg (x y : Nibble)
  | subReg (x y : Nibble)
  | shr (x y : Nibble)
  | subnReg (x y : Nibble)
  | shl (x y : Nibble)
  | sneReg (x y : Nibble)
  | ldI (nnn : Imm12)
  | jpV0 (nnn : Imm12)
  | rnd (x : Nibble) (kk : Byte)
  | drw (x y n : Nibble)
  | skp (x : Nibble)
  | sknp (x : Nibble)
  | ldVxDt (x : Nibble)
  | ldVxK (x : Nibble)
  | ldDtVx (x : Nibble)
  | ldStVx (x : Nibble)
  | addI (x : Nibble)
  | ldF (x : Nibble)
  | ldB (x : Nibble)
  | ldMemVx (x : Nibble)
  | ldVxMem (x : Nibble)
  | nop (w : Word)
  deriving DecidableEq, Repr

end Sys2Proof
end

