-- ==== Sys2Proof/Decode.lean ====
section
/-! DEFINITION. Decoding, the pure function of the 16-bit word of 30_encoding.md R65; the opcode map of R64 as rows of
mask and match; the undefined words of R66; and the encoder, written from the word column of R64. -/

namespace Sys2Proof

/-! ### The fields of R61 -/

/-- `op = w[15:12]`, the family selector (R61). -/
def opField (w : Word) : Nibble := w.extractLsb' 12 4

/-- `x = w[11:8]` (R61). -/
def xField (w : Word) : Nibble := w.extractLsb' 8 4

/-- `y = w[7:4]` (R61). -/
def yField (w : Word) : Nibble := w.extractLsb' 4 4

/-- `n = w[3:0]` (R61). -/
def nField (w : Word) : Nibble := w.extractLsb' 0 4

/-- `kk = w[7:0]` (R61). -/
def kkField (w : Word) : Byte := w.extractLsb' 0 8

/-- `nnn = w[11:0]` (R61). -/
def nnnField (w : Word) : Imm12 := w.extractLsb' 0 12

/-! ### Decoding (R65) -/

/-- The decoding procedure of R65: strict, every bit that is no operand field is compared (D4), and a word that matches
no defined pattern is the no-op (R66). -/
def decodeWord (w : Word) : Instr :=
  match opField w with
  | 0x0#4 => if w = 0x00E0#16 then .cls else if w = 0x00EE#16 then .ret else .nop w
  | 0x1#4 => .jp (nnnField w)
  | 0x2#4 => .call (nnnField w)
  | 0x3#4 => .seImm (xField w) (kkField w)
  | 0x4#4 => .sneImm (xField w) (kkField w)
  | 0x5#4 => if nField w = 0#4 then .seReg (xField w) (yField w) else .nop w
  | 0x6#4 => .ldImm (xField w) (kkField w)
  | 0x7#4 => .addImm (xField w) (kkField w)
  | 0x8#4 =>
    match nField w with
    | 0x0#4 => .ldReg (xField w) (yField w)
    | 0x1#4 => .orReg (xField w) (yField w)
    | 0x2#4 => .andReg (xField w) (yField w)
    | 0x3#4 => .xorReg (xField w) (yField w)
    | 0x4#4 => .addReg (xField w) (yField w)
    | 0x5#4 => .subReg (xField w) (yField w)
    | 0x6#4 => .shr (xField w) (yField w)
    | 0x7#4 => .subnReg (xField w) (yField w)
    | 0xE#4 => .shl (xField w) (yField w)
    | _ => .nop w
  | 0x9#4 => if nField w = 0#4 then .sneReg (xField w) (yField w) else .nop w
  | 0xA#4 => .ldI (nnnField w)
  | 0xB#4 => .jpV0 (nnnField w)
  | 0xC#4 => .rnd (xField w) (kkField w)
  | 0xD#4 => .drw (xField w) (yField w) (nField w)
  | 0xE#4 =>
    match kkField w with
    | 0x9E#8 => .skp (xField w)
    | 0xA1#8 => .sknp (xField w)
    | _ => .nop w
  | _ => -- the one family left: 0xF
    match kkField w with
    | 0x07#8 => .ldVxDt (xField w)
    | 0x0A#8 => .ldVxK (xField w)
    | 0x15#8 => .ldDtVx (xField w)
    | 0x18#8 => .ldStVx (xField w)
    | 0x1E#8 => .addI (xField w)
    | 0x29#8 => .ldF (xField w)
    | 0x33#8 => .ldB (xField w)
    | 0x55#8 => .ldMemVx (xField w)
    | 0x65#8 => .ldVxMem (xField w)
    | _ => .nop w

/-- Why the byte decoder refuses a list of bytes. -/
inductive DecodeError where
  /-- Fewer than two bytes: no instruction is shorter than one word (R60). -/
  | truncated
  deriving DecidableEq, Repr

/-- The word of two bytes in memory order: the byte at the lower address is the high byte (20_memory.md R43). -/
def wordOfBytes (hi lo : Byte) : Word := hi ++ lo

/-- The decoder on bytes: one instruction and the bytes after it. Every two bytes decode (R65); fewer are refused. -/
def decodeBytes : List Byte → Except DecodeError (Instr × List Byte)
  | hi :: lo :: rest => .ok (decodeWord (wordOfBytes hi lo), rest)
  | _ => .error .truncated

/-! ### The opcode map (R64) as rows -/

/-- One row of R64: a word `w` selects it when `w AND mask = pattern`; `build` takes the operand fields of its format
(R62) from the word. -/
structure OpcodeRow where
  mask : Word
  pattern : Word
  build : Word → Instr

/-- Format Z and format A rows: CLS, RET, JP, CALL, LD I, JP V0 (R62, R64). -/
def rowsZA : List OpcodeRow :=
  [⟨0xFFFF, 0x00E0, fun _ => .cls⟩, ⟨0xFFFF, 0x00EE, fun _ => .ret⟩,
   ⟨0xF000, 0x1000, fun w => .jp (nnnField w)⟩, ⟨0xF000, 0x2000, fun w => .call (nnnField w)⟩,
   ⟨0xF000, 0xA000, fun w => .ldI (nnnField w)⟩, ⟨0xF000, 0xB000, fun w => .jpV0 (nnnField w)⟩]

/-- Format XK and XYN rows: SE, SNE, LD, ADD with immediate, RND; DRW (R62, R64). -/
def rowsXK : List OpcodeRow :=
  [⟨0xF000, 0x3000, fun w => .seImm (xField w) (kkField w)⟩, ⟨0xF000, 0x4000, fun w => .sneImm (xField w) (kkField w)⟩,
   ⟨0xF000, 0x6000, fun w => .ldImm (xField w) (kkField w)⟩, ⟨0xF000, 0x7000, fun w => .addImm (xField w) (kkField w)⟩,
   ⟨0xF000, 0xC000, fun w => .rnd (xField w) (kkField w)⟩,
   ⟨0xF000, 0xD000, fun w => .drw (xField w) (yField w) (nField w)⟩]

/-- Format XY rows (R62, R64). -/
def rowsXY : List OpcodeRow :=
  [⟨0xF00F, 0x5000, fun w => .seReg (xField w) (yField w)⟩, ⟨0xF00F, 0x9000, fun w => .sneReg (xField w) (yField w)⟩,
   ⟨0xF00F, 0x8000, fun w => .ldReg (xField w) (yField w)⟩, ⟨0xF00F, 0x8001, fun w => .orReg (xField w) (yField w)⟩,
   ⟨0xF00F, 0x8002, fun w => .andReg (xField w) (yField w)⟩, ⟨0xF00F, 0x8003, fun w => .xorReg (xField w) (yField w)⟩,
   ⟨0xF00F, 0x8004, fun w => .addReg (xField w) (yField w)⟩, ⟨0xF00F, 0x8005, fun w => .subReg (xField w) (yField w)⟩,
   ⟨0xF00F, 0x8006, fun w => .shr (xField w) (yField w)⟩, ⟨0xF00F, 0x8007, fun w => .subnReg (xField w) (yField w)⟩,
   ⟨0xF00F, 0x800E, fun w => .shl (xField w) (yField w)⟩]

/-- Format X rows: families E and F (R62, R64). -/
def rowsX : List OpcodeRow :=
  [⟨0xF0FF, 0xE09E, fun w => .skp (xField w)⟩, ⟨0xF0FF, 0xE0A1, fun w => .sknp (xField w)⟩,
   ⟨0xF0FF, 0xF007, fun w => .ldVxDt (xField w)⟩, ⟨0xF0FF, 0xF00A, fun w => .ldVxK (xField w)⟩,
   ⟨0xF0FF, 0xF015, fun w => .ldDtVx (xField w)⟩, ⟨0xF0FF, 0xF018, fun w => .ldStVx (xField w)⟩,
   ⟨0xF0FF, 0xF01E, fun w => .addI (xField w)⟩, ⟨0xF0FF, 0xF029, fun w => .ldF (xField w)⟩,
   ⟨0xF0FF, 0xF033, fun w => .ldB (xField w)⟩, ⟨0xF0FF, 0xF055, fun w => .ldMemVx (xField w)⟩,
   ⟨0xF0FF, 0xF065, fun w => .ldVxMem (xField w)⟩]

/-- The 34 rows of R64. -/
def opcodeRows : List OpcodeRow := rowsZA ++ rowsXK ++ rowsXY ++ rowsX

/-- `w` selects the row: `w AND mask = match` (R64). -/
def OpcodeRow.selects (r : OpcodeRow) (w : Word) : Bool := w &&& r.mask == r.pattern

/-- The undefined words, family by family as R66 lists them. -/
def undefinedWord (w : Word) : Bool :=
  match opField w with
  | 0x0#4 => w != 0x00E0#16 && w != 0x00EE#16
  | 0x5#4 => nField w != 0#4
  | 0x8#4 => [0x8#4, 0x9#4, 0xA#4, 0xB#4, 0xC#4, 0xD#4, 0xF#4].contains (nField w)
  | 0x9#4 => nField w != 0#4
  | 0xE#4 => kkField w != 0x9E#8 && kkField w != 0xA1#8
  | 0xF#4 =>
    !([0x07#8, 0x0A#8, 0x15#8, 0x18#8, 0x1E#8, 0x29#8, 0x33#8, 0x55#8, 0x65#8].contains (kkField w))
  | _ => false

/-! ### The encoder, from the word column of R64 -/

/-- Format A: `op ++ nnn` (R62). -/
def wordA (op : Nibble) (nnn : Imm12) : Word := op ++ nnn

/-- Formats XK and X: `op ++ x ++ kk` (R62). -/
def wordXK (op x : Nibble) (kk : Byte) : Word := op ++ x ++ kk

/-- Formats XY and XYN: `op ++ x ++ y ++ n` (R62). -/
def wordXYN (op x y n : Nibble) : Word := op ++ x ++ y ++ n

/-- The word of an instruction (R64). `shr` and `shl` put their ignored `y` field where R62 has it; `nop` is its own
word. -/
def encode : Instr → Word
  | .cls => 0x00E0#16
  | .ret => 0x00EE#16
  | .jp nnn => wordA 0x1 nnn
  | .call nnn => wordA 0x2 nnn
  | .seImm x kk => wordXK 0x3 x kk
  | .sneImm x kk => wordXK 0x4 x kk
  | .seReg x y => wordXYN 0x5 x y 0x0
  | .ldImm x kk => wordXK 0x6 x kk
  | .addImm x kk => wordXK 0x7 x kk
  | .ldReg x y => wordXYN 0x8 x y 0x0
  | .orReg x y => wordXYN 0x8 x y 0x1
  | .andReg x y => wordXYN 0x8 x y 0x2
  | .xorReg x y => wordXYN 0x8 x y 0x3
  | .addReg x y => wordXYN 0x8 x y 0x4
  | .subReg x y => wordXYN 0x8 x y 0x5
  | .shr x y => wordXYN 0x8 x y 0x6
  | .subnReg x y => wordXYN 0x8 x y 0x7
  | .shl x y => wordXYN 0x8 x y 0xE
  | .sneReg x y => wordXYN 0x9 x y 0x0
  | .ldI nnn => wordA 0xA nnn
  | .jpV0 nnn => wordA 0xB nnn
  | .rnd x kk => wordXK 0xC x kk
  | .drw x y n => wordXYN 0xD x y n
  | .skp x => wordXK 0xE x 0x9E
  | .sknp x => wordXK 0xE x 0xA1
  | .ldVxDt x => wordXK 0xF x 0x07
  | .ldVxK x => wordXK 0xF x 0x0A
  | .ldDtVx x => wordXK 0xF x 0x15
  | .ldStVx x => wordXK 0xF x 0x18
  | .addI x => wordXK 0xF x 0x1E
  | .ldF x => wordXK 0xF x 0x29
  | .ldB x => wordXK 0xF x 0x33
  | .ldMemVx x => wordXK 0xF x 0x55
  | .ldVxMem x => wordXK 0xF x 0x65
  | .nop w => w

/-- The two bytes of a word in memory order, high byte first (20_memory.md R43). -/
def bytesOfWord (w : Word) : List Byte := [w.extractLsb' 8 8, w.extractLsb' 0 8]

/-- The word whose low `nbits` bits are those of `w` and whose other bits are 0. -/
def tableWord (nbits w : Nat) : Word := BitVec.ofNat 16 (w % 2 ^ nbits)

/-- What the decoder reads from an instruction whose bits are `w`, numbered as spec/opcode_table.json numbers them: the
word is laid out as the hardware stores it and given to the decoder. -/
def decodeTableWord (nbits w : Nat) : Option Instr :=
  match decodeBytes (bytesOfWord (tableWord nbits w)) with
  | .ok (i, _) => some i
  | .error _ => none

end Sys2Proof
end

