-- ==== Sys2Proof/Config.lean ====
section
/-! DEFINITION. What is fixed for the machine (00_scope.md R5) and its one free value, the random byte. The
parameter FONT of R5, an argument of the reset, stands in Machine/Font.lean. -/

namespace Sys2Proof

/-- `MEMSIZE`: 4096 bytes (R5). -/
def Config.memSize : Nat := 4096

/-- `FONT_BASE`: 0x050 (R5). -/
def Config.fontBase : Nat := 0x050

/-- `PROG_BASE`: the reset pc and the load address, 0x200 (R5). -/
def Config.progBase : Nat := 0x200

/-- `ROM_MAX`: the largest program, 3584 bytes (R5, R192). -/
def Config.romMax : Nat := 3584

/-- The free value of 42_alu.md R121: the byte the random generator gives at its `k`-th draw. It has no body: nothing is
known of any draw, and nothing relates two draws (R121, D19; log 4). -/
opaque Config.randomByte (k : Nat) : Byte

end Sys2Proof
end

