-- ==== Sys2Proof/Machine/Font.lean ====
section
/-! DEFINITION. The parameter FONT of 00_scope.md R5 and its default, the table of 20_memory.md R41, and what a byte of
memory holds when nothing has written it (10_state.md R23). -/

namespace Sys2Proof.Machine

/-- The open part of the parameter FONT: the 75 bytes of glyphs 1 to F (R5, R41, D16). Glyph 0 is fixed. -/
abbrev Font := Vector Byte 75

/-- Glyph 0, `FONT[0..4]`, which the source fixes (R5, R41). -/
def glyphZero : List Byte := [0xF0, 0x90, 0x90, 0x90, 0xF0]

/-- Glyphs 1 to F of the table of R41, glyph by glyph. -/
def tableGlyphs : List Byte :=
  [0x20, 0x60, 0x20, 0x20, 0x70] ++ [0xF0, 0x10, 0xF0, 0x80, 0xF0] ++ [0xF0, 0x10, 0xF0, 0x10, 0xF0] ++
  [0x90, 0x90, 0xF0, 0x10, 0x10] ++ [0xF0, 0x80, 0xF0, 0x10, 0xF0] ++ [0xF0, 0x80, 0xF0, 0x90, 0xF0] ++
  [0xF0, 0x10, 0x20, 0x40, 0x40] ++ [0xF0, 0x90, 0xF0, 0x90, 0xF0] ++ [0xF0, 0x90, 0xF0, 0x10, 0xF0] ++
  [0xF0, 0x90, 0xF0, 0x90, 0x90] ++ [0xE0, 0x90, 0xE0, 0x90, 0xE0] ++ [0xF0, 0x80, 0x80, 0x80, 0xF0] ++
  [0xE0, 0x90, 0x90, 0x90, 0xE0] ++ [0xF0, 0x80, 0xF0, 0x80, 0xF0] ++ [0xF0, 0x80, 0xF0, 0x80, 0x80]

/-- The default of FONT, the table of R41 (log 3). -/
def defaultFont : Font := ⟨tableGlyphs.toArray, rfl⟩

/-- `FONT[0..79]` (R41). -/
def fontBytes (font : Font) : List Byte := glyphZero ++ font.toList

/-- What an unlisted address reads as: its reset contents under the default of FONT, the font at 0x050 to 0x09F and 0x00
elsewhere (R23, R41). A core with another FONT lists the bytes in which it differs (`State.resetWith`). -/
def unlistedByte (a : Nat) : Byte :=
  if Config.fontBase ≤ a then (fontBytes defaultFont).getD (a - Config.fontBase) 0 else 0

end Sys2Proof.Machine
end

