-- ==== Sys2Proof/Machine/State.lean ====
section
/-! DEFINITION. The state of the core (10_state.md R10), the reasons a step or a host move can stop, and the state after
reset (R23). -/

namespace Sys2Proof.Machine

/-- Memory (R19): address and byte pairs, addresses strictly rising, no entry equal to what an unlisted address reads
as (`Memory.wf` in Machine/Ops.lean). -/
abbrev Memory := List Host.Cell

/-- The framebuffer (R18): 32 rows of 64 pixels, true meaning lit; the spec's `fb[row * 64 + col]` is row `row`, column
`col`. -/
abbrev Framebuffer := Vector (Vector Bool 64) 32

/-- The complete state of the core: the rows of R10, and the report output of the cycle (R85, R162; log 5). -/
structure State where
  /-- `V[0..15]`, 8 bits each (R11); `V[15]` is VF (R12). -/
  v : Vector Byte 16
  /-- `I`, the index register (R13). -/
  i : Word
  /-- `pc` (R14). -/
  pc : Word
  /-- `stack[0..15]` (R15). -/
  stack : Vector Word 16
  /-- `sp`, the count of active stack entries, 0 to 16 (R15; log 11). -/
  sp : Fin 17
  /-- `DT`, the delay timer (R16). -/
  dt : Byte
  /-- `ST`, the sound timer (R16). -/
  st : Byte
  /-- `key[0..15]`, true meaning pressed (R17). -/
  key : Vector Bool 16
  /-- `fb` (R18). -/
  fb : Framebuffer
  /-- `mem` (R19). -/
  mem : Memory
  /-- `rng` (R21), held as the number of draws made so far (log 4). -/
  rng : Nat
  /-- `opcode`, the word fetched by the last cycle (R20; log 6). -/
  opcode : Word
  /-- The report output of the last cycle: 0 none, 1 stack overflow, 2 stack underflow (R162; log 5). -/
  report : BitVec 2
  deriving DecidableEq, Repr

/-- Why a step faults: never. "The core raises no synchronous exception" (60_exceptions.md R160), so the type has no
constructor (safe; log 9). -/
inductive Fault where
  deriving DecidableEq, Repr

/-- Why a step or a host move is refused. -/
inductive Refusal where
  /-- Raised by `exec` alone, for an instruction that has no meaning yet (safe). No arm raises it now. -/
  | notModelled (mnemonic : String)
  /-- Raised by the host's load move alone, never by a step: the program image is longer than 3584 bytes, and the load is
  rejected, writing nothing (70_reset_and_hazards.md R192; safe; log 8). -/
  | imageTooLarge
  deriving DecidableEq, Repr

/-- What a meaning, a step or a move answers. -/
abbrev Result := Host.Outcome State Fault Refusal

/-- The state after reset (R23, R190), FONT at its default; `State.resetWith` takes FONT as an argument. Memory lists
nothing: an unlisted address reads as its reset byte. The value of `rng` is the model's (log 4). -/
def State.reset : State where
  v := Vector.replicate 16 0
  i := 0
  pc := 0x200
  stack := Vector.replicate 16 0
  sp := 0
  dt := 0
  st := 0
  key := Vector.replicate 16 false
  fb := Vector.replicate 32 (Vector.replicate 64 false)
  mem := []
  rng := 0
  opcode := 0
  report := 0

end Sys2Proof.Machine
end

