-- ==== Sys2Proof/Machine/Ops.lean ====
section
/-! DEFINITION. The named operations over memory, registers, stack, framebuffer and report. The core takes no exception
and has no return from one (60_exceptions.md R160, R165, R166), so no such operation exists: the outcomes that stand in
for exceptions are the report (R162), the skip (R98), the stall (R153) and the wrap of addresses (R42). -/

namespace Sys2Proof.Machine

/-! ### Plain field updates -/

def State.setV (s : State) (x : Vector Byte 16) : State := { s with v := x }
def State.setI (s : State) (x : Word) : State := { s with i := x }
def State.setPc (s : State) (x : Word) : State := { s with pc := x }
def State.setStack (s : State) (x : Vector Word 16) : State := { s with stack := x }
def State.setSp (s : State) (x : Fin 17) : State := { s with sp := x }
def State.setDt (s : State) (x : Byte) : State := { s with dt := x }
def State.setSt (s : State) (x : Byte) : State := { s with st := x }
def State.setKey (s : State) (x : Vector Bool 16) : State := { s with key := x }
def State.setFb (s : State) (x : Framebuffer) : State := { s with fb := x }
def State.setMem (s : State) (x : Memory) : State := { s with mem := x }
def State.setRng (s : State) (x : Nat) : State := { s with rng := x }
def State.setOpcode (s : State) (x : Word) : State := { s with opcode := x }
def State.setReport (s : State) (x : BitVec 2) : State := { s with report := x }

/-! ### Memory (20_memory.md) -/

/-- The byte listed for address `a`, or the reset byte of an unlisted address. -/
def Memory.byteAt : Memory → Nat → Byte
  | [], a => unlistedByte a
  | c :: m, a => if c.1 = a then c.2 else Memory.byteAt m a

/-- Memory without an entry for `a`. -/
def Memory.without (m : Memory) (a : Nat) : Memory := m.filter fun c => c.1 != a

/-- Enter a cell before the first entry with a higher address. -/
def Memory.enter : Memory → Host.Cell → Memory
  | [], c => [c]
  | d :: m, c => if c.1 < d.1 then c :: d :: m else d :: Memory.enter m c

/-- Make address `a` read as `b`, in canonical form: no entry where `b` is the reset byte of `a`. -/
def Memory.put (m : Memory) (a : Nat) (b : Byte) : Memory :=
  if b = unlistedByte a then m.without a else (m.without a).enter (a, b)

/-- `MemRead(addr, 1)`: the byte at `addr mod 4096` (R42). -/
def Memory.read (m : Memory) (addr : Nat) : Byte := m.byteAt (addr % Config.memSize)

/-- `MemWrite(addr, 1, b)`: the byte goes to `addr mod 4096` (R42); no part of memory is protected (R46). -/
def Memory.write (m : Memory) (addr : Nat) (b : Byte) : Memory := m.put (addr % Config.memSize) b

/-- Byte writes at `addr`, `addr + 1`, ... in ascending order, each address wrapped on its own (R45, R51). -/
def Memory.writeList (m : Memory) (addr : Nat) : List Byte → Memory
  | [] => m
  | b :: bs => Memory.writeList (m.write addr b) (addr + 1) bs

/-- The state after reset of a core whose parameter FONT is `font` (10_state.md R23; 20_memory.md R41): the font's 80 bytes
stand at 0x050, and all else is as `State.reset` has it. -/
def State.resetWith (font : Font) : State :=
  State.reset.setMem (Memory.writeList [] Config.fontBase (fontBytes font))

/-- The canonical form: addresses strictly rising and below 4096, no entry equal to its address's reset byte. -/
abbrev Memory.wf (m : Memory) : Prop :=
  m.Pairwise (fun c d => c.1 < d.1) ∧ ∀ c ∈ m, c.1 < Config.memSize ∧ c.2 ≠ unlistedByte c.1

/-! ### General registers (10_state.md R11) -/

/-- The index of VF (R12). -/
def vF : Nibble := 0xF

/-- `V[x]`. -/
def State.readV (s : State) (x : Nibble) : Byte := s.v[x.toNat]'x.isLt

/-- `V[x] <- b`. -/
def State.writeV (s : State) (x : Nibble) (b : Byte) : State := s.setV (s.v.set x.toNat b x.isLt)

/-! ### The program counter -/

/-- The skip: `pc <- (pc + 2) mod 65536` (41_control.md R98). -/
def State.skip (s : State) : State := s.setPc (s.pc + 2)

/-- Skip if `c` holds. -/
def State.skipIf (s : State) (c : Bool) : State := if c then s.skip else s

/-- `pc <- pc0`: back to the instruction being executed, whose fetch added 2 (40_cycle.md R81; log 12). -/
def State.rewind (s : State) : State := s.setPc (s.pc - 2)

/-! ### The stack (10_state.md R15) and the report (60_exceptions.md R162) -/

/-- The report codes (R162). -/
def reportNone : BitVec 2 := 0
def reportOverflow : BitVec 2 := 1
def reportUnderflow : BitVec 2 := 2

/-- `stack[sp] <- w; sp <- sp + 1` (41_control.md R92). -/
def State.push (s : State) (w : Word) (h : s.sp.val < 16) : State :=
  (s.setStack (s.stack.set s.sp.val w h)).setSp ⟨s.sp.val + 1, Nat.succ_lt_succ h⟩

/-- `stack[sp - 1]`, the most recent entry. -/
def State.top (s : State) (h : 0 < s.sp.val) : Word :=
  s.stack[s.sp.val - 1]'(by have := s.sp.isLt; omega)

/-- `sp <- sp - 1`; the slot keeps its value (41_control.md R90). -/
def State.drop (s : State) : State :=
  s.setSp ⟨s.sp.val - 1, by have := s.sp.isLt; omega⟩

/-! ### The keypad (10_state.md R17) -/

/-- `key[k]`. -/
def State.keyDown (s : State) (k : Nibble) : Bool := s.key[k.toNat]'k.isLt

/-- `key[k] <- b`, a host move only (60_exceptions.md R170). -/
def State.writeKey (s : State) (k : Nibble) (b : Bool) : State := s.setKey (s.key.set k.toNat b k.isLt)

/-- The least pressed key, scanning 0, 1, ..., 15 (45_keypad_timers.md R153). -/
def State.firstKey (s : State) : Option Nat := (List.range 16).find? fun k => s.keyDown (BitVec.ofNat 4 k)

/-! ### The framebuffer (44_display.md) -/

/-- `fb[row * 64 + col]` (R142); false outside the grid, which no rule reads. -/
def Framebuffer.get (f : Framebuffer) (row col : Nat) : Bool :=
  if h : row < 32 ∧ col < 64 then (f[row]'h.1)[col]'h.2 else false

/-- `fb[p] <- fb[p] XOR 1`; outside the grid nothing, which no rule writes. -/
def Framebuffer.flip (f : Framebuffer) (row col : Nat) : Framebuffer :=
  if h : row < 32 ∧ col < 64 then
    f.set row ((f[row]'h.1).set col (!(f[row]'h.1)[col]'h.2) h.2) h.1
  else f

/-- All dark (R140). -/
def Framebuffer.dark : Framebuffer := Vector.replicate 32 (Vector.replicate 64 false)

/-- The collision engine (R143): toggle one pixel, and collect whether it was lit. -/
def collideAt (acc : Framebuffer × Bool) (row col : Nat) : Framebuffer × Bool :=
  (acc.1.flip row col, acc.2 || acc.1.get row col)

/-- One sprite row of R141: for `c = 0` to 7, bit `7 - c` of `b` on column `x0 + c`; columns past 63 are clipped. -/
def drawRow (b : Byte) (x0 row : Nat) (acc : Framebuffer × Bool) : Framebuffer × Bool :=
  (List.range 8).foldl
    (fun acc c => if x0 + c ≤ 63 ∧ b.getLsbD (7 - c) = true then collideAt acc row (x0 + c) else acc) acc

/-- The sprite of R141: `n` rows read from `addr` on, drawn from row `y0`; rows past 31 are clipped. Answers the new
framebuffer and the collision. -/
def drawSprite (m : Memory) (addr x0 y0 n : Nat) (f : Framebuffer) : Framebuffer × Bool :=
  (List.range n).foldl
    (fun acc r => if y0 + r ≤ 31 then drawRow (m.read (addr + r)) x0 (y0 + r) acc else acc) (f, false)

/-! ### The random generator (42_alu.md R121) -/

/-- The byte of the next draw. -/
def State.randomByte (s : State) : Byte := Config.randomByte s.rng

/-- `rng` after one draw. -/
def State.advanceRng (s : State) : State := s.setRng (s.rng + 1)

/-! ### The fetch (40_cycle.md R80, R82) -/

/-- The word at `pc`: two byte reads, each wrapped on its own, high byte first (R80, R82; 20_memory.md R43). -/
def State.fetchWord (s : State) : Word :=
  wordOfBytes (s.mem.read s.pc.toNat) (s.mem.read (s.pc.toNat + 1))

/-- What the fetch leaves: `opcode` the word, `pc` advanced by 2 modulo 65536, `report` 0 (R80). -/
def State.fetched (s : State) : State :=
  ((s.setOpcode s.fetchWord).setPc (s.pc + 2)).setReport reportNone

/-- A word stored at `pc` as the fetch reads it. -/
def State.placeWord (s : State) (w : Word) : State :=
  s.setMem (s.mem.writeList s.pc.toNat (bytesOfWord w))

end Sys2Proof.Machine
end

