-- ==== Sys2Proof/Machine/Flags.lean ====
section
/-! DEFINITION. The flag computations of 42_alu.md R123 and 44_display.md R141, and the one order in which a flag and a
result are written (R124). -/

namespace Sys2Proof.Machine

/-- 1 or 0. -/
def flagOf (c : Bool) : Byte := if c then 1 else 0

/-- The 16-bit intermediate sum of ADD Vx, Vy (R116). -/
def sum16 (a b : Byte) : Word := a.setWidth 16 + b.setWidth 16

/-- ADD: 1 if the sum passes 255 (R116). -/
def carryFlag (a b : Byte) : Byte := flagOf (decide (255 < (sum16 a b).toNat))

/-- SUB and SUBN: 1 if the minuend `a` is strictly greater than the subtrahend `b` (R117, R119). -/
def greaterFlag (a b : Byte) : Byte := flagOf (decide (b.toNat < a.toNat))

/-- SHR: bit 0 before the shift (R118). -/
def lowBitFlag (a : Byte) : Byte := flagOf (a.getLsbD 0)

/-- SHL: bit 7 before the shift (R120). -/
def highBitFlag (a : Byte) : Byte := flagOf (a.getLsbD 7)

/-- `V[15] <- flag` and then `V[x] <- result`: where both name VF the result wins (R124). -/
def State.writeFlagThenResult (s : State) (x : Nibble) (flag result : Byte) : State :=
  (s.writeV vF flag).writeV x result

end Sys2Proof.Machine
end

