-- ==== Sys2Proof/Machine/Operands.lean ====
section
/-! DEFINITION. The operand forms: how the fields of R61 and the implied operands of 30_encoding.md R63 become values. -/

namespace Sys2Proof.Machine

/-- `zext_16` of an address immediate (R63). -/
def zext12 (nnn : Imm12) : Word := nnn.setWidth 16

/-- `zext_16` of a byte (R63). -/
def zext8 (b : Byte) : Word := b.setWidth 16

/-- `[I]` with offset `k`: the address `I + k`, wrapped by the access (43_index_memory.md R136; 20_memory.md R42). -/
def State.addrI (s : State) (k : Nat) : Nat := s.i.toNat + k

/-- The key selected by `V[x]`: its low 4 bits (45_keypad_timers.md R150). -/
def State.keySelect (s : State) (x : Nibble) : Nibble := (s.readV x).extractLsb' 0 4

/-- `F`: the glyph address `0x0050 + 5 * V[x]`, on the whole byte (43_index_memory.md R132). -/
def State.glyphAddr (s : State) (x : Nibble) : Word := BitVec.ofNat 16 Config.fontBase + 5 * zext8 (s.readV x)

/-- `B`: the hundreds, tens and ones of a byte (43_index_memory.md R133). -/
def decimalDigits (a : Byte) : List Byte :=
  [BitVec.ofNat 8 (a.toNat / 100), BitVec.ofNat 8 (a.toNat / 10 % 10), BitVec.ofNat 8 (a.toNat % 10)]

/-- `V[0]` to `V[x]` in ascending order (43_index_memory.md R134). -/
def State.regsUpTo (s : State) (x : Nibble) : List Byte :=
  (List.range (x.toNat + 1)).map fun k => s.readV (BitVec.ofNat 4 k)

/-- `for k = 0 to x: V[k] <- MemRead(I + k, 1)` (43_index_memory.md R135). -/
def State.loadRegs (s : State) (x : Nibble) : State :=
  (List.range (x.toNat + 1)).foldl (fun t k => t.writeV (BitVec.ofNat 4 k) (s.mem.read (s.addrI k))) s

/-- The start column of a sprite: `V[x] mod 64` (44_display.md R141). -/
def State.spriteCol (s : State) (x : Nibble) : Nat := (s.readV x).toNat % 64

/-- The start row of a sprite: `V[y] mod 32` (44_display.md R141). -/
def State.spriteRow (s : State) (y : Nibble) : Nat := (s.readV y).toNat % 32

end Sys2Proof.Machine
end

