-- ==== Sys2Proof/Machine/Alu.lean ====
section
/-! DEFINITION. Register loads, arithmetic, logic, shifts and the random byte (42_alu.md). Operands are read before
anything is written (R124). -/

namespace Sys2Proof.Machine

/-- LD Vx, kk (R110). -/
def execLdImm (x : Nibble) (kk : Byte) (s : State) : Result := .next (s.writeV x kk)

/-- ADD Vx, kk (R111): no flag. -/
def execAddImm (x : Nibble) (kk : Byte) (s : State) : Result := .next (s.writeV x (s.readV x + kk))

/-- LD Vx, Vy (R112). -/
def execLdReg (x y : Nibble) (s : State) : Result := .next (s.writeV x (s.readV y))

/-- OR Vx, Vy (R113): no flag. -/
def execOrReg (x y : Nibble) (s : State) : Result := .next (s.writeV x (s.readV x ||| s.readV y))

/-- AND Vx, Vy (R114): no flag. -/
def execAndReg (x y : Nibble) (s : State) : Result := .next (s.writeV x (s.readV x &&& s.readV y))

/-- XOR Vx, Vy (R115): no flag. -/
def execXorReg (x y : Nibble) (s : State) : Result := .next (s.writeV x (s.readV x ^^^ s.readV y))

/-- ADD Vx, Vy (R116). -/
def execAddReg (x y : Nibble) (s : State) : Result :=
  .next (s.writeFlagThenResult x (carryFlag (s.readV x) (s.readV y)) ((sum16 (s.readV x) (s.readV y)).setWidth 8))

/-- SUB Vx, Vy (R117). -/
def execSubReg (x y : Nibble) (s : State) : Result :=
  .next (s.writeFlagThenResult x (greaterFlag (s.readV x) (s.readV y)) (s.readV x - s.readV y))

/-- SHR Vx (R118): the `y` field is ignored. -/
def execShr (x _y : Nibble) (s : State) : Result :=
  .next (s.writeFlagThenResult x (lowBitFlag (s.readV x)) (s.readV x >>> 1))

/-- SUBN Vx, Vy (R119). -/
def execSubnReg (x y : Nibble) (s : State) : Result :=
  .next (s.writeFlagThenResult x (greaterFlag (s.readV y) (s.readV x)) (s.readV y - s.readV x))

/-- SHL Vx (R120): the `y` field is ignored. -/
def execShl (x _y : Nibble) (s : State) : Result :=
  .next (s.writeFlagThenResult x (highBitFlag (s.readV x)) (s.readV x <<< 1))

/-- RND Vx, kk (R121): one draw, whatever `kk`. -/
def execRnd (x : Nibble) (kk : Byte) (s : State) : Result := .next (s.advanceRng.writeV x (s.randomByte &&& kk))

end Sys2Proof.Machine
end

