-- ==== Sys2Proof/Machine/Control.lean ====
section
/-! DEFINITION. Control transfer (41_control.md) and the no-op (40_cycle.md R83). In every meaning `pc` already holds
`pc0 + 2` (R81). -/

namespace Sys2Proof.Machine

/-- RET (R90): with an empty stack it is ignored and reported. -/
def execRet (s : State) : Result :=
  if h : 0 < s.sp.val then .next (s.drop.setPc (s.top h)) else .next (s.setReport reportUnderflow)

/-- JP nnn (R91). -/
def execJp (nnn : Imm12) (s : State) : Result := .next (s.setPc (zext12 nnn))

/-- CALL nnn (R92): with a full stack it is ignored and reported. -/
def execCall (nnn : Imm12) (s : State) : Result :=
  if h : s.sp.val < 16 then .next ((s.push s.pc h).setPc (zext12 nnn)) else .next (s.setReport reportOverflow)

/-- SE Vx, kk (R93). -/
def execSeImm (x : Nibble) (kk : Byte) (s : State) : Result := .next (s.skipIf (s.readV x == kk))

/-- SNE Vx, kk (R94). -/
def execSneImm (x : Nibble) (kk : Byte) (s : State) : Result := .next (s.skipIf (s.readV x != kk))

/-- SE Vx, Vy (R95). -/
def execSeReg (x y : Nibble) (s : State) : Result := .next (s.skipIf (s.readV x == s.readV y))

/-- SNE Vx, Vy (R96). -/
def execSneReg (x y : Nibble) (s : State) : Result := .next (s.skipIf (s.readV x != s.readV y))

/-- JP V0, nnn (R97): always `V[0]`. -/
def execJpV0 (nnn : Imm12) (s : State) : Result := .next (s.setPc (zext8 (s.readV 0) + zext12 nnn))

/-- NOP (R83): nothing, whatever the undefined word. -/
def execNop (_w : Word) (s : State) : Result := .next s

end Sys2Proof.Machine
end

