-- ==== Sys2Proof/Machine/Display.lean ====
section
/-! DEFINITION. The framebuffer instructions (44_display.md). -/

namespace Sys2Proof.Machine

/-- CLS (R140). -/
def execCls (s : State) : Result := .next (s.setFb Framebuffer.dark)

/-- The sprite DRW draws: its position is read before VF is written (R141). -/
def State.drawn (s : State) (x y n : Nibble) : Framebuffer × Bool :=
  drawSprite s.mem (s.addrI 0) (s.spriteCol x) (s.spriteRow y) n.toNat s.fb

/-- DRW Vx, Vy, n (R141). -/
def execDrw (x y n : Nibble) (s : State) : Result :=
  .next ((s.setFb (s.drawn x y n).1).writeV vF (flagOf (s.drawn x y n).2))

end Sys2Proof.Machine
end

