-- ==== Sys2Proof/Machine/Index.lean ====
section
/-! DEFINITION. The index register and the memory instructions (43_index_memory.md). No access changes `I` (R136). -/

namespace Sys2Proof.Machine

/-- LD I, nnn (R130). -/
def execLdI (nnn : Imm12) (s : State) : Result := .next (s.setI (zext12 nnn))

/-- ADD I, Vx (R131): modulo 65536, no flag. -/
def execAddI (x : Nibble) (s : State) : Result := .next (s.setI (s.i + zext8 (s.readV x)))

/-- LD F, Vx (R132). -/
def execLdF (x : Nibble) (s : State) : Result := .next (s.setI (s.glyphAddr x))

/-- LD B, Vx (R133). -/
def execLdB (x : Nibble) (s : State) : Result :=
  .next (s.setMem (s.mem.writeList (s.addrI 0) (decimalDigits (s.readV x))))

/-- LD [I], Vx (R134). -/
def execLdMemVx (x : Nibble) (s : State) : Result := .next (s.setMem (s.mem.writeList (s.addrI 0) (s.regsUpTo x)))

/-- LD Vx, [I] (R135). -/
def execLdVxMem (x : Nibble) (s : State) : Result := .next (s.loadRegs x)

end Sys2Proof.Machine
end

