-- ==== Sys2Proof/Machine/KeypadTimers.lean ====
section
/-! DEFINITION. Keypad and timer instructions (45_keypad_timers.md). -/

namespace Sys2Proof.Machine

/-- SKP Vx (R150). -/
def execSkp (x : Nibble) (s : State) : Result := .next (s.skipIf (s.keyDown (s.keySelect x)))

/-- SKNP Vx (R151). -/
def execSknp (x : Nibble) (s : State) : Result := .next (s.skipIf (!s.keyDown (s.keySelect x)))

/-- LD Vx, DT (R152). -/
def execLdVxDt (x : Nibble) (s : State) : Result := .next (s.writeV x s.dt)

/-- LD Vx, K (R153): the least pressed key, or a stall. -/
def execLdVxK (x : Nibble) (s : State) : Result :=
  match s.firstKey with
  | some k => .next (s.writeV x (BitVec.ofNat 8 k))
  | none => .next s.rewind

/-- LD DT, Vx (R154). -/
def execLdDtVx (x : Nibble) (s : State) : Result := .next (s.setDt (s.readV x))

/-- LD ST, Vx (R155). -/
def execLdStVx (x : Nibble) (s : State) : Result := .next (s.setSt (s.readV x))

end Sys2Proof.Machine
end

