-- ==== Sys2Proof/Machine/Step.lean ====
section
/-! DEFINITION. The cycle (40_cycle.md R80): fetch, decode, execute. -/

namespace Sys2Proof.Machine

/-- `Cycle()` of R80: the fetch, then the meaning of the decoded word on the fetched state. -/
def step (s : State) : Host.Outcome State Fault Refusal := exec (decodeWord s.fetchWord) s.fetched

/-- `s` with the instruction word `w` stored where `step` fetches next: at `pc`, high byte first (log 13). -/
def State.withFetchWord (s : State) (nbits w : Nat) : State := s.placeWord (tableWord nbits w)

end Sys2Proof.Machine
end

