-- ==== Sys2Proof/Machine/HostMoves.lean ====
section
/-! DEFINITION. The host interface (60_exceptions.md R176): the moves, each atomic and between cycles, the readouts, and
histories of moves (R164). -/

namespace Sys2Proof.Machine

/-- One move of the table of R176. -/
inductive Move where
  | reset
  | load (image : List Byte)
  | cycle
  | tick
  | keySet (k : Nibble)
  | keyClear (k : Nibble)
  deriving DecidableEq, Repr

/-- `Reset` (70_reset_and_hazards.md R190) of a core whose parameter FONT is `font`: the state of R23, whenever it is
applied. `rng` is unspecified after it: the next draw is a fresh one (log 4). -/
def State.resetMove (font : Font) (s : State) : State := (State.resetWith font).setRng s.rng

/-- `Load(image)`'s writes (R191): byte `i` to `0x200 + i`; an image over 3584 bytes writes nothing (R192). -/
def State.load (s : State) (image : List Byte) : State :=
  if image.length ≤ Config.romMax then s.setMem (s.mem.writeList Config.progBase image) else s

/-- A timer under a tick: one less, and 0 stays 0 (R168). -/
def countDown (t : Byte) : Byte := if t = 0 then 0 else t - 1

/-- `Tick()` (R168). -/
def State.tick (s : State) : State := (s.setDt (countDown s.dt)).setSt (countDown s.st)

/-- The sound output: `ST > 0` (R169). -/
def State.sound (s : State) : Bool := decide (0 < s.st.toNat)

/-- The framebuffer readout (R171): pixel `fb[p]`, `p = row * 64 + col`. -/
def State.pixel (s : State) (p : Nat) : Bool := s.fb.get (p / 64) (p % 64)

/-- One move of a history (R176) of a core whose parameter FONT is `font`. A load that is too large is refused (R192;
log 8). -/
def move (font : Font) (m : Move) (s : State) : Result :=
  match m with
  | .reset => .next (s.resetMove font)
  | .load image => if image.length ≤ Config.romMax then .next (s.load image) else .refused .imageTooLarge
  | .cycle => step s
  | .tick => .next s.tick
  | .keySet k => .next (s.writeKey k true)
  | .keyClear k => .next (s.writeKey k false)

/-- A history of moves, in the order the host chose (R164), ending at the first refusal. -/
def runMoves (font : Font) : List Move → State → Result
  | [], s => .next s
  | m :: ms, s =>
    match move font m s with
    | .next t => runMoves font ms t
    | .fault r => .fault r
    | .refused r => .refused r

end Sys2Proof.Machine
end

