-- ==== Sys2Proof/Safety.lean ====
section
/-! DEFINITION. The terms claims are made in: what a state keeps of another, the access matrix of 10_state.md R24, the
invariant every step keeps, and the pixels a sprite covers. The core has no unsafe state: no run faults (60_exceptions.md
R160), so a safe run is one whose states meet `State.Inv`. -/

namespace Sys2Proof.Machine

/-! ### Frames -/

/-- The fields of `State`, one name each. -/
inductive Field where
  | v | i | pc | stack | sp | dt | st | key | fb | mem | rng | opcode | report
  deriving DecidableEq, Repr

/-- The field has the same value in both states. -/
def Field.Same (s t : State) : Field → Prop
  | .v => t.v = s.v
  | .i => t.i = s.i
  | .pc => t.pc = s.pc
  | .stack => t.stack = s.stack
  | .sp => t.sp = s.sp
  | .dt => t.dt = s.dt
  | .st => t.st = s.st
  | .key => t.key = s.key
  | .fb => t.fb = s.fb
  | .mem => t.mem = s.mem
  | .rng => t.rng = s.rng
  | .opcode => t.opcode = s.opcode
  | .report => t.report = s.report

/-- From `s` to `t` every field is unchanged but those listed. Where `mem` is not listed, memory is the same list, so
every byte reads as before. -/
def KeepsAllBut (changed : List Field) (s t : State) : Prop := ∀ f, f ∉ changed → f.Same s t

/-- Every general register but those listed holds what it held. -/
def RegsKeptBut (xs : List Nibble) (s t : State) : Prop := ∀ r, r ∉ xs → t.readV r = s.readV r

/-- Every byte outside the `n` bytes from `a` on (each address modulo 4096, R42) reads as before. -/
def BytesKeptOutside (a n : Nat) (s t : State) : Prop :=
  ∀ b, (∀ k, k < n → (a + k) % 4096 ≠ b % 4096) → t.mem.read b = s.mem.read b

/-! ### The access matrix (R24) -/

/-- The state an instruction may write, beside what the fetch wrote: the `w` entries of R24, and the report of an ignored
CALL or RET (R162). -/
def writesFields : Instr → List Field
  | .cls => [.fb]
  | .ret => [.pc, .sp, .report]
  | .jp _ => [.pc]
  | .call _ => [.pc, .stack, .sp, .report]
  | .seImm _ _ | .sneImm _ _ | .seReg _ _ | .sneReg _ _ => [.pc]
  | .ldImm _ _ | .addImm _ _ | .ldReg _ _ | .orReg _ _ | .andReg _ _ | .xorReg _ _ => [.v]
  | .addReg _ _ | .subReg _ _ | .subnReg _ _ | .shr _ _ | .shl _ _ => [.v]
  | .ldI _ | .addI _ | .ldF _ => [.i]
  | .jpV0 _ => [.pc]
  | .rnd _ _ => [.v, .rng]
  | .drw _ _ _ => [.v, .fb]
  | .skp _ | .sknp _ => [.pc]
  | .ldVxDt _ => [.v]
  | .ldVxK _ => [.v, .pc]
  | .ldDtVx _ => [.dt]
  | .ldStVx _ => [.st]
  | .ldB _ | .ldMemVx _ => [.mem]
  | .ldVxMem _ => [.v]
  | .nop _ => []

/-- The instruction may write register `r`: the `w` entries of R24's column `V`. -/
def writesReg (r : Nibble) : Instr → Bool
  | .ldImm x _ | .addImm x _ | .ldReg x _ | .orReg x _ | .andReg x _ | .xorReg x _ => r == x
  | .addReg x _ | .subReg x _ | .subnReg x _ | .shr x _ | .shl x _ => r == x || r == vF
  | .rnd x _ | .ldVxDt x | .ldVxK x => r == x
  | .drw _ _ _ => r == vF
  | .ldVxMem x => decide (r.toNat ≤ x.toNat)
  | .cls | .ret | .jp _ | .call _ | .seImm _ _ | .sneImm _ _ | .seReg _ _ | .sneReg _ _ | .ldI _ | .addI _ => false
  | .ldF _ | .jpV0 _ | .skp _ | .sknp _ | .ldDtVx _ | .ldStVx _ | .ldB _ | .ldMemVx _ | .nop _ => false

/-- How many bytes from `I` on the instruction stores (20_memory.md R45). -/
def storeLength : Instr → Nat
  | .ldB _ => 3
  | .ldMemVx x => x.toNat + 1
  | .cls | .ret | .jp _ | .call _ | .seImm _ _ | .sneImm _ _ | .seReg _ _ | .sneReg _ _ | .ldI _ | .addI _ => 0
  | .ldF _ | .jpV0 _ | .skp _ | .sknp _ | .ldDtVx _ | .ldStVx _ | .nop _ | .ldImm _ _ | .addImm _ _ => 0
  | .ldReg _ _ | .orReg _ _ | .andReg _ _ | .xorReg _ _ | .addReg _ _ | .subReg _ _ | .subnReg _ _ => 0
  | .shr _ _ | .shl _ _ | .rnd _ _ | .drw _ _ _ | .ldVxDt _ | .ldVxK _ | .ldVxMem _ => 0

/-! ### The invariant -/

/-- What every reachable state meets: memory is canonical within 0x000 to 0xFFF (R40), and the report is never 3
(R162). -/
abbrev State.Inv (s : State) : Prop := s.mem.wf ∧ s.report ≠ 3

/-! ### Sprites (44_display.md R142) -/

/-- Sprite bit at screen position (`row`, `col`) of `n` rows read from `addr` on, drawn at column `x0` and row `y0`:
byte `row - y0`, bit `7 - (col - x0)`; false where the sprite does not reach. -/
def spriteBit (m : Memory) (addr x0 y0 n row col : Nat) : Bool :=
  decide (y0 ≤ row ∧ row < y0 + n ∧ x0 ≤ col ∧ col < x0 + 8) &&
    (m.read (addr + (row - y0))).getLsbD (7 - (col - x0))

/-- The sprite bit DRW Vx, Vy, n applies to the pixel at (`row`, `col`) in state `s` (R141). -/
def State.spriteBitAt (s : State) (x y n : Nibble) (row col : Nat) : Bool :=
  spriteBit s.mem s.i.toNat ((s.readV x).toNat % 64) ((s.readV y).toNat % 32) n.toNat row col

/-! ### Sequences of instructions -/

/-- The meanings of several instructions one after another, without fetches between them. -/
def execAll : List Instr → State → Result
  | [], s => .next s
  | i :: is, s =>
    match exec i s with
    | .next t => execAll is t
    | .fault r => .fault r
    | .refused r => .refused r

end Sys2Proof.Machine
end

