-- ==== Sys2Proof/Certificates/Slice0/Obligations.lean ====
section
/-! DEFINITION. The statements for the provers. `exec i s` runs after the fetch, so in a statement about a meaning
`s.pc` is `pc0 + 2`, the address of the next instruction in sequence (40_cycle.md R81). D<n> is a row of
92_eei_decisions.md, log n an entry of the assumption log. The Encoding line of each instruction rule is the spec's
decision D1 (30_encoding.md R64); the encoding statements below state it, and no other statement rests on it unless it
says so. -/

open Sys2Proof Sys2Proof.Machine

/-! ### Encoding (30_encoding.md) -/

/-- Every well-formed instruction's word decodes to it, on the word and on bytes in memory order; no operand bit is
dropped. The numbering is R64's (D1), the byte order R43's (D2). -/
def Obligations.DecodeOfEncodeIsTheInstruction : Prop :=
  ∀ i : Instr, i.wellFormed = true →
    decodeWord (encode i) = i ∧ ∀ rest, decodeBytes (bytesOfWord (encode i) ++ rest) = .ok (i, rest)

/-- Every one of the 65536 words is the word of the well-formed instruction it decodes to. -/
def Obligations.EncodeOfDecodeIsTheWord : Prop :=
  ∀ w : Word, (decodeWord w).wellFormed = true ∧ encode (decodeWord w) = w

/-- The procedure of R65 reads a word as the row of the map R64 that it selects, and as the no-op where it selects none. -/
def Obligations.DecoderFollowsOpcodeMap : Prop :=
  ∀ w : Word,
    (∀ r ∈ opcodeRows, r.selects w = true → decodeWord w = r.build w) ∧
    ((∀ r ∈ opcodeRows, r.selects w = false) → decodeWord w = .nop w)

/-- The 34 patterns of R64 are pairwise disjoint: no word selects two rows. -/
def Obligations.OpcodeMapRowsAreDisjoint : Prop :=
  opcodeRows.length = 34 ∧
    opcodeRows.Pairwise fun r r' => ∀ w, ¬ (r.selects w = true ∧ r'.selects w = true)

/-- The words that decode to the no-op are exactly those R66 lists (strict decoding, D4). -/
def Obligations.NopWordsAreTheUndefinedWords : Prop :=
  ∀ w : Word, decodeWord w = .nop w ↔ undefinedWord w = true

/-- Words of 95_test_vectors.md, one or more for each of the 16 values of the top 4 bits, decode to the instructions they
stand for (D1). -/
def Obligations.SampleWordsDecode : Prop :=
  decodeWord 0x00E0 = .cls ∧ decodeWord 0x00EE = .ret ∧ decodeWord 0x1ABC = .jp 0xABC ∧
  decodeWord 0x220A = .call 0x20A ∧ decodeWord 0x3A42 = .seImm 0xA 0x42 ∧ decodeWord 0x4A42 = .sneImm 0xA 0x42 ∧
  decodeWord 0x5AB0 = .seReg 0xA 0xB ∧ decodeWord 0x6A3C = .ldImm 0xA 0x3C ∧ decodeWord 0x7A01 = .addImm 0xA 0x01 ∧
  decodeWord 0x8AB4 = .addReg 0xA 0xB ∧ decodeWord 0x8ABE = .shl 0xA 0xB ∧ decodeWord 0x9AB0 = .sneReg 0xA 0xB ∧
  decodeWord 0xA300 = .ldI 0x300 ∧ decodeWord 0xB300 = .jpV0 0x300 ∧ decodeWord 0xCA0F = .rnd 0xA 0x0F ∧
  decodeWord 0xD015 = .drw 0 1 5 ∧ decodeWord 0xEAA1 = .sknp 0xA ∧ decodeWord 0xFA0A = .ldVxK 0xA ∧
  decodeWord 0xF265 = .ldVxMem 2 ∧ decodeWord 0x5AB1 = .nop 0x5AB1

/-! ### The cycle (40_cycle.md) -/

/-- When the two bytes at `pc` (each address modulo 4096, R82) decode to `i`, the step is `i` run on the state in which
`opcode` is their word, `pc` is 2 on modulo 65536, `report` is 0, and nothing else has changed (R80, R81). The model
keeps `opcode` and `report` in State (log 5, log 6). -/
def Obligations.StepRunsTheDecodedInstruction : Prop :=
  ∀ (s : State) (i : Instr),
    decodeBytes [s.mem.read s.pc.toNat, s.mem.read (s.pc.toNat + 1)] = .ok (i, []) →
    ∃ t, step s = exec i t ∧ t.pc = s.pc + 2 ∧
      t.opcode = wordOfBytes (s.mem.read s.pc.toNat) (s.mem.read (s.pc.toNat + 1)) ∧ t.report = 0 ∧
      KeepsAllBut [.pc, .opcode, .report] s t

/-- R160: every cycle, from any state whatever, completes and yields a next state; so does every meaning. -/
def Obligations.EveryCycleCompletes : Prop :=
  (∀ s : State, ∃ t, step s = .next t) ∧ (∀ (i : Instr) (s : State), ∃ t, exec i s = .next t)

/-- An instruction's bytes placed at `pc` are what the next cycle fetches and runs (R43, R80; byte order D2, log 2; wrap of
addresses D5, log 15). -/
def Obligations.PlacedInstructionIsFetchedAndRun : Prop :=
  ∀ (s : State) (i : Instr), i.wellFormed = true →
    (s.placeWord (encode i)).fetchWord = encode i ∧
      step (s.placeWord (encode i)) = exec i (s.placeWord (encode i)).fetched

/-- R83: on an undefined word (R66, D4) the cycle only advances `pc`, and the meaning of the no-op changes nothing. The
cycle's outputs `opcode` and `report` are fields of the model (log 5, log 6). -/
def Obligations.UndefinedWordOnlyAdvancesPc : Prop :=
  (∀ (w : Word) (s : State), exec (.nop w) s = .next s) ∧
  ∀ s : State, undefinedWord s.fetchWord = true →
    ∃ t, step s = .next t ∧ t.pc = s.pc + 2 ∧ t.report = 0 ∧ KeepsAllBut [.pc, .opcode, .report] s t

/-- R14, R81, R98: what a cycle does to `pc`, instruction by instruction: a skip under its own condition, a jump, a call, a
return, a key wait; every other instruction leaves `pc` at `pc0 + 2`. The ignored CALL and RET rest on D8, the key that
SKP and SKNP test on D12, the stall on D13 (log 12), the wrap of `pc` on D6 (log 15). -/
def Obligations.PcAfterACycle : Prop :=
  ∀ s t : State, step s = .next t →
    match decodeWord s.fetchWord with
    | .jp nnn => t.pc.toNat = nnn.toNat
    | .call nnn => if s.sp.val < 16 then t.pc.toNat = nnn.toNat else t.pc = s.pc + 2
    | .ret => if h : 0 < s.sp.val then t.pc = s.top h else t.pc = s.pc + 2
    | .jpV0 nnn => t.pc.toNat = (s.readV 0).toNat + nnn.toNat
    | .seImm x kk => t.pc = if s.readV x = kk then s.pc + 4 else s.pc + 2
    | .sneImm x kk => t.pc = if s.readV x = kk then s.pc + 2 else s.pc + 4
    | .seReg x y => t.pc = if s.readV x = s.readV y then s.pc + 4 else s.pc + 2
    | .sneReg x y => t.pc = if s.readV x = s.readV y then s.pc + 2 else s.pc + 4
    | .skp x => t.pc = if s.keyDown ((s.readV x).setWidth 4) = true then s.pc + 4 else s.pc + 2
    | .sknp x => t.pc = if s.keyDown ((s.readV x).setWidth 4) = true then s.pc + 2 else s.pc + 4
    | .ldVxK _ => if ∃ k, s.keyDown k = true then t.pc = s.pc + 2 else t.pc = s.pc
    | _ => t.pc = s.pc + 2

/-! ### Control transfer (41_control.md) -/

/-- R91: JP nnn. -/
def Obligations.JumpGoesToTarget : Prop :=
  ∀ (nnn : Imm12) (s : State), ∃ t, exec (.jp nnn) s = .next t ∧ t.pc.toNat = nnn.toNat ∧ KeepsAllBut [.pc] s t

/-- R97: JP V0, nnn; the sum never wraps, and the register is always V0. -/
def Obligations.IndexedJumpAddsV0 : Prop :=
  ∀ (nnn : Imm12) (s : State), ∃ t, exec (.jpV0 nnn) s = .next t ∧
    t.pc.toNat = (s.readV 0).toNat + nnn.toNat ∧ KeepsAllBut [.pc] s t

/-- R92, R15: CALL pushes the address after it and goes to the target; with 16 active entries it is ignored whole and
reported (D8). -/
def Obligations.CallPushesOrIsIgnored : Prop :=
  ∀ (nnn : Imm12) (s : State), ∃ t, exec (.call nnn) s = .next t ∧
    if s.sp.val = 16 then t.report = 1 ∧ KeepsAllBut [.report] s t
    else t.sp.val = s.sp.val + 1 ∧ t.stack[s.sp.val]? = some s.pc ∧
      (∀ k, k ≠ s.sp.val → t.stack[k]? = s.stack[k]?) ∧ t.pc.toNat = nnn.toNat ∧
      KeepsAllBut [.pc, .stack, .sp] s t

/-- R90, R15: RET restores the most recent entry and keeps its slot; with no active entry it is ignored and reported
(D8). -/
def Obligations.ReturnPopsOrIsIgnored : Prop :=
  ∀ s : State, ∃ t, exec .ret s = .next t ∧
    if s.sp.val = 0 then t.report = 2 ∧ KeepsAllBut [.report] s t
    else t.sp.val + 1 = s.sp.val ∧ s.stack[t.sp.val]? = some t.pc ∧ KeepsAllBut [.pc, .sp] s t

/-- Source §8 (95_test_vectors.md S5): a CALL, then anything that ends with the same stack, then RET, ends at the address
following the CALL. -/
def Obligations.ReturnComesBackAfterTheCall : Prop :=
  ∀ (nnn : Imm12) (s t u : State), s.sp.val < 16 → exec (.call nnn) s = .next t →
    u.sp = t.sp → u.stack = t.stack →
    ∃ r, exec .ret u = .next r ∧ r.pc = s.pc ∧ r.sp = s.sp

/-- Source §8 (95_test_vectors.md S5), at every nesting depth: as many nested calls as there are free slots, then as many
returns, come back to where they began. -/
def Obligations.NestedCallsReturnInOrder : Prop :=
  ∀ (targets : List Imm12) (s : State), s.sp.val + targets.length ≤ 16 →
    ∃ t u, execAll (targets.map .call) s = .next t ∧ t.sp.val = s.sp.val + targets.length ∧
      execAll (List.replicate targets.length .ret) t = .next u ∧ u.pc = s.pc ∧ u.sp = s.sp

/-- R93, R94, R98: SE and SNE with an immediate. -/
def Obligations.SkipsComparingAnImmediate : Prop :=
  ∀ (x : Nibble) (kk : Byte) (s : State),
    (∃ t, exec (.seImm x kk) s = .next t ∧ KeepsAllBut [.pc] s t ∧
      t.pc = if s.readV x = kk then s.pc + 2 else s.pc) ∧
    (∃ t, exec (.sneImm x kk) s = .next t ∧ KeepsAllBut [.pc] s t ∧
      t.pc = if s.readV x = kk then s.pc else s.pc + 2)

/-- R95, R96, R98: SE and SNE of two registers. -/
def Obligations.SkipsComparingRegisters : Prop :=
  ∀ (x y : Nibble) (s : State),
    (∃ t, exec (.seReg x y) s = .next t ∧ KeepsAllBut [.pc] s t ∧
      t.pc = if s.readV x = s.readV y then s.pc + 2 else s.pc) ∧
    (∃ t, exec (.sneReg x y) s = .next t ∧ KeepsAllBut [.pc] s t ∧
      t.pc = if s.readV x = s.readV y then s.pc else s.pc + 2)

/-! ### Registers (42_alu.md) -/

/-- R110, R111, R112: the plain loads and ADD Vx, kk write their one register, no flag, and nothing else. -/
def Obligations.LoadsAndAddImmediate : Prop :=
  ∀ (x y : Nibble) (kk : Byte) (s : State),
    (∃ t, exec (.ldImm x kk) s = .next t ∧ t.readV x = kk ∧ RegsKeptBut [x] s t ∧ KeepsAllBut [.v] s t) ∧
    (∃ t, exec (.addImm x kk) s = .next t ∧ (t.readV x).toNat = ((s.readV x).toNat + kk.toNat) % 256 ∧
      RegsKeptBut [x] s t ∧ KeepsAllBut [.v] s t) ∧
    (∃ t, exec (.ldReg x y) s = .next t ∧ t.readV x = s.readV y ∧ RegsKeptBut [x] s t ∧ KeepsAllBut [.v] s t)

/-- R113, R114, R115: OR, AND and XOR act bit by bit; VF is unchanged unless it is the destination (D18). -/
def Obligations.LogicActsBitByBit : Prop :=
  ∀ (x y : Nibble) (s : State),
    (∃ t, exec (.orReg x y) s = .next t ∧ RegsKeptBut [x] s t ∧ KeepsAllBut [.v] s t ∧
      ∀ k, (t.readV x).getLsbD k = ((s.readV x).getLsbD k || (s.readV y).getLsbD k)) ∧
    (∃ t, exec (.andReg x y) s = .next t ∧ RegsKeptBut [x] s t ∧ KeepsAllBut [.v] s t ∧
      ∀ k, (t.readV x).getLsbD k = ((s.readV x).getLsbD k && (s.readV y).getLsbD k)) ∧
    (∃ t, exec (.xorReg x y) s = .next t ∧ RegsKeptBut [x] s t ∧ KeepsAllBut [.v] s t ∧
      ∀ k, (t.readV x).getLsbD k = ((s.readV x).getLsbD k ^^ (s.readV y).getLsbD k))

/-- R116: ADD Vx, Vy. Where `x` is F the result wins and the flag is lost (R124, D15); the operands are those before the
instruction, also where `y` is F. -/
def Obligations.AddWritesSumAndCarry : Prop :=
  ∀ (x y : Nibble) (s : State),
    ∃ t, exec (.addReg x y) s = .next t ∧ RegsKeptBut [x, vF] s t ∧ KeepsAllBut [.v] s t ∧
      (t.readV x).toNat = ((s.readV x).toNat + (s.readV y).toNat) % 256 ∧
      (x ≠ vF → (t.readV vF).toNat = if (s.readV x).toNat + (s.readV y).toNat > 255 then 1 else 0)

/-- R117, R119: SUB and SUBN; the comparison is strict. Where `x` is F the result wins and the flag is lost; the operands
are those before the instruction, also where `y` is F (R124, D15). -/
def Obligations.SubtractionsWriteDifferenceAndFlag : Prop :=
  ∀ (x y : Nibble) (s : State),
    (∃ t, exec (.subReg x y) s = .next t ∧ RegsKeptBut [x, vF] s t ∧ KeepsAllBut [.v] s t ∧
      ((t.readV x).toNat : Int) = ((s.readV x).toNat - (s.readV y).toNat : Int) % 256 ∧
      (x ≠ vF → (t.readV vF).toNat = if (s.readV x).toNat > (s.readV y).toNat then 1 else 0)) ∧
    (∃ t, exec (.subnReg x y) s = .next t ∧ RegsKeptBut [x, vF] s t ∧ KeepsAllBut [.v] s t ∧
      ((t.readV x).toNat : Int) = ((s.readV y).toNat - (s.readV x).toNat : Int) % 256 ∧
      (x ≠ vF → (t.readV vF).toNat = if (s.readV y).toNat > (s.readV x).toNat then 1 else 0))

/-- R118, R120: SHR and SHL by one, the bit shifted out in VF, whatever the `y` field (D18). Where `x` is F the result
wins and the flag is lost (R124, D15). -/
def Obligations.ShiftsMoveOneBitOut : Prop :=
  ∀ (x y : Nibble) (s : State),
    (∃ t, exec (.shr x y) s = .next t ∧ RegsKeptBut [x, vF] s t ∧ KeepsAllBut [.v] s t ∧
      (t.readV x).toNat = (s.readV x).toNat / 2 ∧ (x ≠ vF → (t.readV vF).toNat = (s.readV x).toNat % 2)) ∧
    (∃ t, exec (.shl x y) s = .next t ∧ RegsKeptBut [x, vF] s t ∧ KeepsAllBut [.v] s t ∧
      (t.readV x).toNat = 2 * (s.readV x).toNat % 256 ∧ (x ≠ vF → (t.readV vF).toNat = (s.readV x).toNat / 128))

/-- R12: each of the six flag writers leaves VF exactly 0 or 1, but where VF is the destination of one of the first five;
DRW always does. -/
def Obligations.FlagsAreZeroOrOne : Prop :=
  ∀ (i : Instr) (s t : State), exec i s = .next t →
    match i with
    | .addReg x _ | .subReg x _ | .subnReg x _ | .shr x _ | .shl x _ => x ≠ vF → t.readV vF = 0 ∨ t.readV vF = 1
    | .drw _ _ _ => t.readV vF = 0 ∨ t.readV vF = 1
    | _ => True

/-- R121, D19: RND writes the free byte of the draw ANDed with `kk`, takes exactly one draw, and bits where `kk` is 0 are
0. The byte is the free value `Config.randomByte`, and the draw is counted by the model's own field `rng` (log 4); the
statement holds for every value of both. -/
def Obligations.RandomByteIsMasked : Prop :=
  ∀ (x : Nibble) (kk : Byte) (s : State), ∃ t, exec (.rnd x kk) s = .next t ∧
    t.readV x = Config.randomByte s.rng &&& kk ∧ t.rng = s.rng + 1 ∧
    (∀ k, kk.getLsbD k = false → (t.readV x).getLsbD k = false) ∧
    RegsKeptBut [x] s t ∧ KeepsAllBut [.v, .rng] s t

/-! ### The index register and memory (43_index_memory.md, 20_memory.md) -/

/-- R130, R132: LD I, nnn and LD F, Vx, on the whole byte of `V[x]`. -/
def Obligations.IndexLoads : Prop :=
  ∀ (nnn : Imm12) (x : Nibble) (s : State),
    (∃ t, exec (.ldI nnn) s = .next t ∧ t.i.toNat = nnn.toNat ∧ KeepsAllBut [.i] s t) ∧
    (∃ t, exec (.ldF x) s = .next t ∧ t.i.toNat = 0x50 + 5 * (s.readV x).toNat ∧ KeepsAllBut [.i] s t)

/-- R131: ADD I, Vx adds modulo 65536 and sets no flag (D7). -/
def Obligations.IndexAddWraps : Prop :=
  ∀ (x : Nibble) (s : State), ∃ t, exec (.addI x) s = .next t ∧
    t.i.toNat = (s.i.toNat + (s.readV x).toNat) % 65536 ∧ KeepsAllBut [.i] s t

/-- R133: LD B stores the three decimal digits of `V[x]` at `I`, `I + 1`, `I + 2`, each address wrapped by the read. -/
def Obligations.DecimalDigitsAreStored : Prop :=
  ∀ (x : Nibble) (s : State), ∃ t, exec (.ldB x) s = .next t ∧
    (t.mem.read s.i.toNat).toNat = (s.readV x).toNat / 100 ∧
    (t.mem.read (s.i.toNat + 1)).toNat = (s.readV x).toNat / 10 % 10 ∧
    (t.mem.read (s.i.toNat + 2)).toNat = (s.readV x).toNat % 10 ∧
    BytesKeptOutside s.i.toNat 3 s t ∧ KeepsAllBut [.mem] s t

/-- R134: LD [I], Vx stores `V[0]` to `V[x]` at `I` to `I + x`; registers and `I` are unchanged. -/
def Obligations.BlockStoreWritesRegisters : Prop :=
  ∀ (x : Nibble) (s : State), ∃ t, exec (.ldMemVx x) s = .next t ∧
    (∀ k : Nibble, k.toNat ≤ x.toNat → t.mem.read (s.i.toNat + k.toNat) = s.readV k) ∧
    BytesKeptOutside s.i.toNat (x.toNat + 1) s t ∧ KeepsAllBut [.mem] s t

/-- R135: LD Vx, [I] loads `V[0]` to `V[x]` from `I` to `I + x`; higher registers, `I` and memory are unchanged. -/
def Obligations.BlockLoadReadsRegisters : Prop :=
  ∀ (x : Nibble) (s : State), ∃ t, exec (.ldVxMem x) s = .next t ∧
    (∀ k : Nibble, k.toNat ≤ x.toNat → t.readV k = s.mem.read (s.i.toNat + k.toNat)) ∧
    (∀ k : Nibble, x.toNat < k.toNat → t.readV k = s.readV k) ∧ KeepsAllBut [.v] s t

/-- A block store and then a block load of the same registers through the same `I`, whatever the registers held in
between, brings every stored register back (R134, R135). -/
def Obligations.BlockLoadUndoesBlockStore : Prop :=
  ∀ (x : Nibble) (s t u : State), exec (.ldMemVx x) s = .next t → u.mem = t.mem → u.i = s.i →
    ∃ r, exec (.ldVxMem x) u = .next r ∧ ∀ k : Nibble, k.toNat ≤ x.toNat → r.readV k = s.readV k

/-- R42, R46: a byte written at any address is what the address reads as, under every alias modulo 4096, and every other
byte is left alone; no address is protected (D5, D17). -/
def Obligations.ByteWrittenIsByteRead : Prop :=
  ∀ (m : Memory) (a b : Nat) (v : Byte),
    (m.write a v).read b = (if a % 4096 = b % 4096 then v else m.read b) ∧ m.read (b + 4096) = m.read b

/-- R49: whichever byte of the next instruction a store covers, LD [I], Vx or LD B, Vx, at whatever offset, the next cycle
fetches the byte stored: into the high half of the word for the byte at `pc`, into the low half for the byte at `pc + 1`
(R43, D2, log 2). Addresses are compared modulo 4096 (R42, D5, log 15). -/
def Obligations.StoreIsSeenByTheNextFetch : Prop :=
  ∀ (x : Nibble) (s : State),
    (∃ t, exec (.ldMemVx x) s = .next t ∧ ∀ k : Nibble, k.toNat ≤ x.toNat →
      ((s.i.toNat + k.toNat) % 4096 = s.pc.toNat % 4096 → t.fetchWord.extractLsb' 8 8 = s.readV k) ∧
      ((s.i.toNat + k.toNat) % 4096 = (s.pc.toNat + 1) % 4096 → t.fetchWord.extractLsb' 0 8 = s.readV k)) ∧
    (∃ t, exec (.ldB x) s = .next t ∧ ∀ (k : Nat) (d : Byte),
      [(s.readV x).toNat / 100, (s.readV x).toNat / 10 % 10, (s.readV x).toNat % 10][k]? = some d.toNat →
      ((s.i.toNat + k) % 4096 = s.pc.toNat % 4096 → t.fetchWord.extractLsb' 8 8 = d) ∧
      ((s.i.toNat + k) % 4096 = (s.pc.toNat + 1) % 4096 → t.fetchWord.extractLsb' 0 8 = d))

/-! ### The display (44_display.md) -/

/-- R140: CLS darkens every pixel and touches no other state. -/
def Obligations.ClearDarkensEveryPixel : Prop :=
  ∀ s : State, ∃ t, exec .cls s = .next t ∧ (∀ p, t.pixel p = false) ∧ KeepsAllBut [.fb] s t

/-- R141, R142, R143: DRW toggles exactly the pixels of the screen whose sprite bit is 1, and VF is 1 exactly when one of
them was lit. The start wraps, pixels past the edges are clipped (D9), bit 7 is the left column (D10). -/
def Obligations.DrawTogglesTheSpritesPixels : Prop :=
  ∀ (x y n : Nibble) (s : State), ∃ t, exec (.drw x y n) s = .next t ∧
    (∀ row col, row < 32 → col < 64 → t.fb.get row col = (s.fb.get row col ^^ s.spriteBitAt x y n row col)) ∧
    (t.readV vF = 1 ∨ t.readV vF = 0) ∧
    (t.readV vF = 1 ↔ ∃ row col, row < 32 ∧ col < 64 ∧ s.spriteBitAt x y n row col = true ∧ s.fb.get row col = true) ∧
    RegsKeptBut [vF] s t ∧ KeepsAllBut [.v, .fb] s t

/-- Source §8 (95_test_vectors.md S4): the same sprite drawn twice at the same place restores the framebuffer, and onto a
dark screen the second draw collides exactly when some sprite bit lies on the screen. VF names neither coordinate. -/
def Obligations.DrawTwiceRestoresTheScreen : Prop :=
  ∀ (x y n : Nibble) (s t : State), x ≠ vF → y ≠ vF → exec (.drw x y n) s = .next t →
    ∃ u, exec (.drw x y n) t = .next u ∧ u.fb = s.fb ∧
      ((∀ row col, s.fb.get row col = false) →
        (t.readV vF = 0 ∧ (u.readV vF = 1 ↔ ∃ row col, row < 32 ∧ col < 64 ∧ s.spriteBitAt x y n row col = true)))

/-! ### Keypad and timers (45_keypad_timers.md) -/

/-- R150, R151, R98: SKP and SKNP test the key that the low 4 bits of `V[x]` select (D12). -/
def Obligations.KeySkipsTestTheSelectedKey : Prop :=
  ∀ (x k : Nibble) (s : State), k.toNat = (s.readV x).toNat % 16 →
    (∃ t, exec (.skp x) s = .next t ∧ KeepsAllBut [.pc] s t ∧
      t.pc = if s.keyDown k = true then s.pc + 2 else s.pc) ∧
    (∃ t, exec (.sknp x) s = .next t ∧ KeepsAllBut [.pc] s t ∧
      t.pc = if s.keyDown k = true then s.pc else s.pc + 2)

/-- R153: LD Vx, K gives the least pressed key; with none pressed it changes nothing but `pc`, which goes back by the 2
the fetch added (D13, log 12). -/
def Obligations.KeyWaitTakesTheLeastKey : Prop :=
  ∀ (x : Nibble) (s : State), ∃ t, exec (.ldVxK x) s = .next t ∧
    (∀ k : Nibble, s.keyDown k = true → (∀ j : Nibble, j.toNat < k.toNat → s.keyDown j = false) →
      (t.readV x).toNat = k.toNat ∧ RegsKeptBut [x] s t ∧ KeepsAllBut [.v] s t) ∧
    ((∀ k : Nibble, s.keyDown k = false) → t.pc + 2 = s.pc ∧ KeepsAllBut [.pc] s t)

/-- R153, R175: a core that waits for a key and sees none stays where it is for any number of cycles, and nothing but the
outputs of the last cycle changes (D13). -/
def Obligations.KeyWaitStallsForEver : Prop :=
  ∀ (x : Nibble) (s : State) (n : Nat), decodeWord s.fetchWord = .ldVxK x → (∀ k, s.keyDown k = false) →
    ∃ t, Host.Core.run Sys2Proof.core n s = .next t ∧ KeepsAllBut [.opcode, .report] s t

/-- R152, R154, R155: LD Vx, DT; LD DT, Vx; LD ST, Vx. -/
def Obligations.TimersAreReadAndLoaded : Prop :=
  ∀ (x : Nibble) (s : State),
    (∃ t, exec (.ldVxDt x) s = .next t ∧ t.readV x = s.dt ∧ RegsKeptBut [x] s t ∧ KeepsAllBut [.v] s t) ∧
    (∃ t, exec (.ldDtVx x) s = .next t ∧ t.dt = s.readV x ∧ KeepsAllBut [.dt] s t) ∧
    (∃ t, exec (.ldStVx x) s = .next t ∧ t.st = s.readV x ∧ KeepsAllBut [.st] s t)

/-! ### Reset, the invariant, and the host's moves (10_state.md, 60_exceptions.md, 70_reset_and_hazards.md) -/

/-- R23, R41: the state after reset, for every value of the parameter FONT (D16, R5): glyph 0 at 0x50 is the source's, the
other 75 font bytes are the parameter's. `State.reset` is the state for the default of FONT (log 3). `I`, `sp` and
`opcode` are the spec's decision D20, the report D8; `rng` is unspecified and nothing is said of it (log 4). -/
def Obligations.ResetLeavesTheSpecsValues : Prop :=
  State.resetWith defaultFont = State.reset ∧
  ∀ (font : Font) (r : State), r = State.resetWith font →
    (∀ x, r.readV x = 0) ∧ r.i = 0 ∧ r.pc = 0x200 ∧ (∀ k, k < 16 → r.stack[k]? = some 0) ∧ r.sp = 0 ∧ r.dt = 0 ∧
    r.st = 0 ∧ (∀ k, r.keyDown k = false) ∧ (∀ p, r.pixel p = false) ∧ r.opcode = 0 ∧ r.report = 0 ∧
    (∀ a, a < 0x50 → r.mem.read a = 0) ∧
    [r.mem.read 0x50, r.mem.read 0x51, r.mem.read 0x52, r.mem.read 0x53, r.mem.read 0x54] =
      [0xF0, 0x90, 0x90, 0x90, 0xF0] ∧
    (∀ (k : Nat) (h : k < 75), r.mem.read (0x55 + k) = font[k]) ∧
    (∀ a, 0xA0 ≤ a → a < 4096 → r.mem.read a = 0)

/-- The state after reset meets the invariant, whatever FONT is. The canonical form of memory is the model's own
representation (log 26), and so is the report as a field (log 5). -/
def Obligations.ResetMeetsTheInvariant : Prop := State.reset.Inv ∧ ∀ font : Font, (State.resetWith font).Inv

/-- Every step keeps the invariant, from every state that meets it. The invariant is the model's: memory lists addresses
of 0x000 to 0xFFF alone (R40, R42, D5), in rising order and without an entry at its reset byte (the canonical form, the
model's own representation, log 26), and the report, a field by log 5, is never 3 (R162). -/
def Obligations.StepKeepsTheInvariant : Prop :=
  ∀ s t : State, s.Inv → step s = .next t → t.Inv

/-- Every history of cycles and host moves keeps the invariant, in whatever order the host makes them (R164, R176),
whatever FONT is. The canonical form is log 26 and the report field log 5; that a load may stand anywhere in a history,
also after a cycle, is the model's choice (log 7): the spec puts it after reset and before the first cycle. -/
def Obligations.HistoriesKeepTheInvariant : Prop :=
  ∀ (font : Font) (ms : List Move) (s t : State), s.Inv → runMoves font ms s = .next t → t.Inv

/-- A history ends in a next state whatever its order, if no image in it is over 3584 bytes (R160, R164, R192). That an
oversize load is a refusal is log 8. That a load may stand anywhere in a history is the model's choice (log 7): the spec
puts it after reset and before the first cycle. -/
def Obligations.HistoriesComplete : Prop :=
  ∀ (font : Font) (ms : List Move) (s : State), (∀ image, Move.load image ∈ ms → image.length ≤ 3584) →
    ∃ t, runMoves font ms s = .next t

/-- R168, D14: `n` ticks take `n` from each timer, stopping at 0, and touch nothing else. -/
def Obligations.TicksCountDownToZero : Prop :=
  ∀ (font : Font) (n : Nat) (s : State), ∃ t, runMoves font (List.replicate n .tick) s = .next t ∧
    t.dt.toNat = s.dt.toNat - n ∧ t.st.toNat = s.st.toNat - n ∧ KeepsAllBut [.dt, .st] s t

/-- R170: KeySet and KeyClear change their own key and nothing else, and no cycle changes a key. -/
def Obligations.KeyMovesChangeOneKey : Prop :=
  ∀ (font : Font) (k : Nibble) (s : State),
    (∃ t, move font (.keySet k) s = .next t ∧ t.keyDown k = true ∧ (∀ j, j ≠ k → t.keyDown j = s.keyDown j) ∧
      KeepsAllBut [.key] s t) ∧
    (∃ t, move font (.keyClear k) s = .next t ∧ t.keyDown k = false ∧ (∀ j, j ≠ k → t.keyDown j = s.keyDown j) ∧
      KeepsAllBut [.key] s t) ∧
    (∀ t, step s = .next t → t.key = s.key)

/-- R169: the sound output is `ST > 0`; LD ST, Vx turns it on exactly when `V[x]` is not 0, and a tick turns it off
exactly when it takes `ST` from 1 to 0. -/
def Obligations.SoundIsOnWhileStIsPositive : Prop :=
  (∀ s : State, s.sound = true ↔ s.st ≠ 0) ∧
  (∀ (x : Nibble) (s t : State), exec (.ldStVx x) s = .next t → (t.sound = true ↔ s.readV x ≠ 0)) ∧
  (∀ (font : Font) (s t : State), move font .tick s = .next t → s.sound = true → (t.sound = false ↔ s.st = 1))

/-- R191, R192: an image of at most 3584 bytes is copied to 0x200 on and nothing else changes; a longer one is rejected
and writes nothing. The refusal is the model's form of the rejection (log 8). The spec says this of a load after reset and
before the first cycle; that a load in any other state does the same is the model's choice (log 7). -/
def Obligations.LoadCopiesTheImageOrIsRejected : Prop :=
  ∀ (font : Font) (image : List Byte) (s : State),
    (image.length ≤ 3584 → ∃ t, move font (.load image) s = .next t ∧
      (∀ i, i < image.length → some (t.mem.read (0x200 + i)) = image[i]?) ∧
      BytesKeptOutside 0x200 image.length s t ∧ KeepsAllBut [.mem] s t) ∧
    (3584 < image.length → move font (.load image) s = .refused .imageTooLarge ∧ s.load image = s)

/-- R191: after reset and load the first cycle fetches the image's first two bytes, byte 0 the high byte (D2). -/
def Obligations.FirstCycleFetchesTheImage : Prop :=
  ∀ (font : Font) (b0 b1 : Byte) (rest : List Byte) (s : State), rest.length + 2 ≤ 3584 →
    ∃ t, runMoves font [.reset, .load (b0 :: b1 :: rest)] s = .next t ∧ t.pc = 0x200 ∧
      t.fetchWord = wordOfBytes b0 b1 ∧ step t = exec (decodeWord (wordOfBytes b0 b1)) t.fetched

/-- R190, D20: a reset of a running core gives the state of R23 for the core's FONT, all but `rng`, which is unspecified;
in the model the draws go on counting (log 4). -/
def Obligations.ResetDiscardsAllState : Prop :=
  ∀ (font : Font) (s : State), ∃ t, move font .reset s = .next t ∧ KeepsAllBut [.rng] (State.resetWith font) t ∧
    t.rng = s.rng

/-! ### Rules of the whole machine -/

/-- R24, R12, R17, R18, R21: the access matrix. Beside what the fetch writes, an instruction writes only the state of its
row, only the registers of its row, and only the bytes it stores to, `storeLength` of them from `I` on. -/
def Obligations.InstructionsWriteOnlyTheirRow : Prop :=
  ∀ (i : Instr) (s t : State), exec i s = .next t →
    KeepsAllBut (writesFields i) s t ∧ (∀ r, writesReg r i = false → t.readV r = s.readV r) ∧
      BytesKeptOutside (s.addrI 0) (storeLength i) s t

/-- R162, D8: a cycle reports 1 for an ignored CALL, 2 for an ignored RET, and 0 otherwise. The report is a field of the
model's State (log 5). -/
def Obligations.ReportTellsIgnoredCallsAndReturns : Prop :=
  ∀ s t : State, step s = .next t →
    match decodeWord s.fetchWord with
    | .call _ => t.report = if s.sp.val = 16 then 1 else 0
    | .ret => t.report = if s.sp.val = 0 then 2 else 0
    | _ => t.report = 0

/-- R15: a cycle moves `sp` by at most one, writes no slot but the one at `sp`, and no slot at all but in a CALL. -/
def Obligations.StackMovesOneEntryAtATime : Prop :=
  ∀ s t : State, step s = .next t →
    t.sp.val ≤ s.sp.val + 1 ∧ s.sp.val ≤ t.sp.val + 1 ∧
    (∀ k, k ≠ s.sp.val → t.stack[k]? = s.stack[k]?) ∧
    (t.stack ≠ s.stack → ∃ nnn, decodeWord s.fetchWord = .call nnn)

/-- R21, R84, R121: a cycle draws a byte exactly when it runs RND; the count of draws is the model's field `rng` (log 4). -/
def Obligations.OnlyRndDraws : Prop :=
  ∀ s t : State, step s = .next t →
    match decodeWord s.fetchWord with
    | .rnd _ _ => t.rng = s.rng + 1
    | _ => t.rng = s.rng

/-- R16, R20, R162: no instruction reads `ST`, `opcode` or the report. Run with other values of the three, an instruction
answers a state that agrees in everything else, and in `ST` too where it is the one that loads it. -/
def Obligations.NothingReadsStOpcodeOrReport : Prop :=
  ∀ (i : Instr) (s s' t : State), KeepsAllBut [.st, .opcode, .report] s s' → exec i s = .next t →
    ∃ t', exec i s' = .next t' ∧ KeepsAllBut [.st, .opcode, .report] t t' ∧
      (t'.st = t.st ∨ (t'.st = s'.st ∧ t.st = s.st))

/-- R200, R91: a jump to its own address repeats for as long as the core is stepped, with nothing changed but the outputs
of the last cycle. -/
def Obligations.JumpToItselfIsFixed : Prop :=
  ∀ (nnn : Imm12) (s : State) (n : Nat), decodeWord s.fetchWord = .jp nnn → s.pc.toNat = nnn.toNat →
    ∃ t, Host.Core.run Sys2Proof.core n s = .next t ∧ KeepsAllBut [.opcode, .report] s t
end

