-- ==== Sys2Proof/Laws/Decode.lean ====
section
/-! SUPPORT. The fields of the words the encoder builds, a word rebuilt from its fields, and the bytes of a word. -/

namespace Sys2Proof

/-! ### Bits of the built words -/

theorem getLsbD_wordA (op : Nibble) (nnn : Imm12) (k : Nat) :
    (wordA op nnn).getLsbD k = if k < 12 then nnn.getLsbD k else op.getLsbD (k - 12) := by
  rw [wordA, BitVec.getLsbD_append]

theorem getLsbD_wordXK (op x : Nibble) (kk : Byte) (k : Nat) :
    (wordXK op x kk).getLsbD k =
      if k < 8 then kk.getLsbD k else if k - 8 < 4 then x.getLsbD (k - 8) else op.getLsbD (k - 8 - 4) := by
  rw [wordXK, BitVec.getLsbD_append, BitVec.getLsbD_append]

theorem getLsbD_wordXYN (op x y n : Nibble) (k : Nat) :
    (wordXYN op x y n).getLsbD k =
      if k < 4 then n.getLsbD k else if k - 4 < 4 then y.getLsbD (k - 4)
      else if k - 4 - 4 < 4 then x.getLsbD (k - 4 - 4) else op.getLsbD (k - 4 - 4 - 4) := by
  rw [wordXYN, BitVec.getLsbD_append, BitVec.getLsbD_append, BitVec.getLsbD_append]

theorem getLsbD_wordOfBytes (hi lo : Byte) (k : Nat) :
    (wordOfBytes hi lo).getLsbD k = if k < 8 then lo.getLsbD k else hi.getLsbD (k - 8) := by
  rw [wordOfBytes, BitVec.getLsbD_append]

/-! ### Format A -/

@[simp] theorem opField_wordA (op : Nibble) (nnn : Imm12) : opField (wordA op nnn) = op :=
  BitVec.eq_of_getLsbD_eq fun k hk => by
    simp [opField, getLsbD_wordA, hk, show ¬ 12 + k < 12 by omega]

@[simp] theorem nnnField_wordA (op : Nibble) (nnn : Imm12) : nnnField (wordA op nnn) = nnn :=
  BitVec.eq_of_getLsbD_eq fun k hk => by simp [nnnField, getLsbD_wordA, hk]

/-! ### Formats XK and X -/

@[simp] theorem opField_wordXK (op x : Nibble) (kk : Byte) : opField (wordXK op x kk) = op :=
  BitVec.eq_of_getLsbD_eq fun k hk => by
    simp [opField, getLsbD_wordXK, hk, show ¬ 12 + k < 8 by omega, show ¬ 12 + k - 8 < 4 by omega,
      show 12 + k - 8 - 4 = k by omega]

@[simp] theorem xField_wordXK (op x : Nibble) (kk : Byte) : xField (wordXK op x kk) = x :=
  BitVec.eq_of_getLsbD_eq fun k hk => by
    simp [xField, getLsbD_wordXK, hk, show ¬ 8 + k < 8 by omega]

@[simp] theorem kkField_wordXK (op x : Nibble) (kk : Byte) : kkField (wordXK op x kk) = kk :=
  BitVec.eq_of_getLsbD_eq fun k hk => by simp [kkField, getLsbD_wordXK, hk]

/-! ### Formats XY and XYN -/

@[simp] theorem opField_wordXYN (op x y n : Nibble) : opField (wordXYN op x y n) = op :=
  BitVec.eq_of_getLsbD_eq fun k hk => by
    simp [opField, getLsbD_wordXYN, hk, show ¬ 12 + k < 4 by omega, show ¬ 12 + k - 4 < 4 by omega,
      show ¬ 12 + k - 4 - 4 < 4 by omega, show 12 + k - 4 - 4 - 4 = k by omega]

@[simp] theorem xField_wordXYN (op x y n : Nibble) : xField (wordXYN op x y n) = x :=
  BitVec.eq_of_getLsbD_eq fun k hk => by
    simp [xField, getLsbD_wordXYN, hk, show ¬ 8 + k < 4 by omega, show ¬ 8 + k - 4 < 4 by omega,
      show 8 + k - 4 - 4 = k by omega]

@[simp] theorem yField_wordXYN (op x y n : Nibble) : yField (wordXYN op x y n) = y :=
  BitVec.eq_of_getLsbD_eq fun k hk => by
    simp [yField, getLsbD_wordXYN, hk, show ¬ 4 + k < 4 by omega]

@[simp] theorem nField_wordXYN (op x y n : Nibble) : nField (wordXYN op x y n) = n :=
  BitVec.eq_of_getLsbD_eq fun k hk => by simp [nField, getLsbD_wordXYN, hk]

/-! ### A word from its fields -/

theorem wordA_fields (w : Word) : wordA (opField w) (nnnField w) = w :=
  BitVec.eq_of_getLsbD_eq fun k hk => by
    rw [getLsbD_wordA]
    split
    · next h => simp [nnnField, h]
    · next h => simp [opField, show k - 12 < 4 by omega, show 12 + (k - 12) = k by omega]

theorem wordXK_fields (w : Word) : wordXK (opField w) (xField w) (kkField w) = w :=
  BitVec.eq_of_getLsbD_eq fun k hk => by
    rw [getLsbD_wordXK]
    split
    · next h => simp [kkField, h]
    · split
      · next h => simp [xField, h, show 8 + (k - 8) = k by omega]
      · next h => simp [opField, show k - 8 - 4 < 4 by omega, show 12 + (k - 8 - 4) = k by omega]

theorem wordXYN_fields (w : Word) : wordXYN (opField w) (xField w) (yField w) (nField w) = w :=
  BitVec.eq_of_getLsbD_eq fun k hk => by
    rw [getLsbD_wordXYN]
    split
    · next h => simp [nField, h]
    · split
      · next h => simp [yField, h, show 4 + (k - 4) = k by omega]
      · split
        · next h => simp [xField, h, show 8 + (k - 4 - 4) = k by omega]
        · next h => simp [opField, show k - 4 - 4 - 4 < 4 by omega, show 12 + (k - 4 - 4 - 4) = k by omega]

/-! ### Words under the masks of R64 -/

theorem wordA_and_op (op : Nibble) (nnn : Imm12) : wordA op nnn &&& 0xF000 = wordA op 0 :=
  BitVec.eq_of_getLsbD_eq fun k hk => by
    rw [BitVec.getLsbD_and, getLsbD_wordA, getLsbD_wordA]; interval_cases k <;> simp

theorem wordXK_and_op (op x : Nibble) (kk : Byte) : wordXK op x kk &&& 0xF000 = wordXK op 0 0 :=
  BitVec.eq_of_getLsbD_eq fun k hk => by
    rw [BitVec.getLsbD_and, getLsbD_wordXK, getLsbD_wordXK]; interval_cases k <;> simp

theorem wordXK_and_op_kk (op x : Nibble) (kk : Byte) : wordXK op x kk &&& 0xF0FF = wordXK op 0 kk :=
  BitVec.eq_of_getLsbD_eq fun k hk => by
    rw [BitVec.getLsbD_and, getLsbD_wordXK, getLsbD_wordXK]; interval_cases k <;> simp

theorem wordXYN_and_op (op x y n : Nibble) : wordXYN op x y n &&& 0xF000 = wordXYN op 0 0 0 :=
  BitVec.eq_of_getLsbD_eq fun k hk => by
    rw [BitVec.getLsbD_and, getLsbD_wordXYN, getLsbD_wordXYN]; interval_cases k <;> simp

theorem wordXYN_and_op_n (op x y n : Nibble) : wordXYN op x y n &&& 0xF00F = wordXYN op 0 0 n :=
  BitVec.eq_of_getLsbD_eq fun k hk => by
    rw [BitVec.getLsbD_and, getLsbD_wordXYN, getLsbD_wordXYN]; interval_cases k <;> simp

/-! ### Bytes -/

/-- The high half of a word is the byte at the lower address. -/
@[simp] theorem wordOfBytes_high (hi lo : Byte) : (wordOfBytes hi lo).extractLsb' 8 8 = hi :=
  BitVec.extractLsb'_append_eq_left

/-- The low half of a word is the byte at the higher address. -/
@[simp] theorem wordOfBytes_low (hi lo : Byte) : (wordOfBytes hi lo).extractLsb' 0 8 = lo :=
  BitVec.extractLsb'_append_eq_right

/-- The two bytes of a word, read high byte first, are the word. -/
theorem wordOfBytes_bytesOfWord (w : Word) : wordOfBytes (w.extractLsb' 8 8) (w.extractLsb' 0 8) = w :=
  BitVec.eq_of_getLsbD_eq fun k hk => by
    rw [getLsbD_wordOfBytes]
    split
    · next h => simp [h]
    · next h => simp [show k - 8 < 8 by omega, show 8 + (k - 8) = k by omega]

theorem decodeBytes_bytesOfWord (w : Word) (rest : List Byte) :
    decodeBytes (bytesOfWord w ++ rest) = .ok (decodeWord w, rest) := by
  simp [bytesOfWord, decodeBytes, wordOfBytes_bytesOfWord]

end Sys2Proof
end

