-- ==== Sys2Proof/Laws/Framebuffer.lean ====
section
/-! SUPPORT. What the framebuffer operations do: one pixel toggled, one sprite row, a whole sprite pixel by pixel. -/

namespace Sys2Proof.Machine

theorem Framebuffer.get_dark (row col : Nat) : Framebuffer.dark.get row col = false := by
  simp [Framebuffer.get, Framebuffer.dark]

/-- A toggle inside the grid changes its own pixel alone. -/
theorem Framebuffer.get_flip (f : Framebuffer) (r c row col : Nat) (hr : r < 32) (hc : c < 64) :
    (f.flip r c).get row col = (f.get row col ^^ decide (row = r ∧ col = c)) := by
  by_cases h : row < 32 ∧ col < 64
  · simp only [Framebuffer.flip, Framebuffer.get, h, hr, hc, and_self, dite_true, Vector.getElem_set]
    by_cases h1 : r = row
    · subst h1
      by_cases h2 : c = col
      · subst h2; simp
      · have : ¬ col = c := fun e => h2 e.symm
        simp [h2, this]
    · have : ¬ row = r := fun e => h1 e.symm
      simp [h1, this]
  · have : ¬ (row = r ∧ col = c) := fun e => h ⟨e.1 ▸ hr, e.2 ▸ hc⟩
    simp [Framebuffer.get, h, this]

/-- Two framebuffers with the same pixels are the same. -/
theorem Framebuffer.ext_get {f g : Framebuffer} (h : ∀ row col, row < 32 → col < 64 → f.get row col = g.get row col) :
    f = g :=
  Vector.ext fun row hr => Vector.ext fun col hc => by
    have := h row col hr hc
    simpa [Framebuffer.get, hr, hc] using this

/-- The columns a sprite row's first `k` columns toggle. -/
def rowHit (b : Byte) (x0 k col : Nat) : Bool :=
  decide (x0 ≤ col ∧ col < x0 + k ∧ col ≤ 63) && b.getLsbD (7 - (col - x0))

theorem rowHit_zero (b : Byte) (x0 col : Nat) : rowHit b x0 0 col = false := by
  rw [rowHit, decide_eq_false (by omega), Bool.false_and]

theorem rowHit_succ_ne (b : Byte) {x0 k col : Nat} (h : col ≠ x0 + k) : rowHit b x0 (k + 1) col = rowHit b x0 k col := by
  unfold rowHit
  congr 1
  simp only [decide_eq_decide]
  omega

theorem rowHit_end (b : Byte) (x0 k : Nat) : rowHit b x0 k (x0 + k) = false := by
  rw [rowHit, decide_eq_false (by omega), Bool.false_and]

theorem rowHit_succ_end (b : Byte) (x0 k : Nat) :
    rowHit b x0 (k + 1) (x0 + k) = (decide (x0 + k ≤ 63) && b.getLsbD (7 - k)) := by
  unfold rowHit
  rw [Nat.add_sub_cancel_left]
  congr 1
  simp only [decide_eq_decide]
  omega

/-- One sprite row drawn over its first `k` columns: which pixels are toggled, and which collisions are added. -/
theorem drawRow_loop_spec (b : Byte) (x0 r : Nat) (hr : r < 32) (acc : Framebuffer × Bool) (k : Nat) :
    (∀ row col, ((List.range k).foldl (fun acc c => if x0 + c ≤ 63 ∧ b.getLsbD (7 - c) = true then
        collideAt acc r (x0 + c) else acc) acc).1.get row col =
      (acc.1.get row col ^^ (decide (row = r) && rowHit b x0 k col))) ∧
    (((List.range k).foldl (fun acc c => if x0 + c ≤ 63 ∧ b.getLsbD (7 - c) = true then
        collideAt acc r (x0 + c) else acc) acc).2 = true ↔
      acc.2 = true ∨ ∃ col, rowHit b x0 k col = true ∧ acc.1.get r col = true) := by
  induction k with
  | zero => simp [rowHit_zero]
  | succ k ih =>
    rw [List.range_succ, List.foldl_append, List.foldl_cons, List.foldl_nil]
    generalize (List.range k).foldl _ acc = mid at ih ⊢
    obtain ⟨ih1, ih2⟩ := ih
    have last := rowHit_succ_end b x0 k
    by_cases hk : x0 + k ≤ 63 ∧ b.getLsbD (7 - k) = true
    · rw [if_pos hk]
      simp only [hk, decide_true, Bool.and_self] at last
      refine ⟨fun row col => ?_, ?_⟩
      · rw [collideAt, Framebuffer.get_flip _ _ _ _ _ hr (by omega), ih1]
        by_cases hc : col = x0 + k
        · subst hc; simp [last, rowHit_end]
        · simp [hc, rowHit_succ_ne]
      · have lit : mid.1.get r (x0 + k) = acc.1.get r (x0 + k) := by simp [ih1, rowHit_end]
        rw [collideAt, Bool.or_eq_true, ih2, lit]
        constructor
        · rintro ((h | ⟨col, h, g⟩) | h)
          · exact .inl h
          · refine .inr ⟨col, ?_, g⟩
            rwa [rowHit_succ_ne]
            rintro rfl; simp [rowHit_end] at h
          · exact .inr ⟨x0 + k, last, h⟩
        · rintro (h | ⟨col, h, g⟩)
          · exact .inl (.inl h)
          · by_cases hc : col = x0 + k
            · subst hc; exact .inr g
            · rw [rowHit_succ_ne b hc] at h
              exact .inl (.inr ⟨col, h, g⟩)
    · rw [if_neg hk]
      have same : rowHit b x0 (k + 1) = rowHit b x0 k := by
        funext col
        by_cases hc : col = x0 + k
        · subst hc
          rw [last, rowHit_end, Bool.and_eq_false_iff, decide_eq_false_iff_not]
          by_cases h : x0 + k ≤ 63
          · exact .inr (by simpa [h] using hk)
          · exact .inl h
        · exact rowHit_succ_ne b hc
      rw [same]
      exact ⟨ih1, ih2⟩

/-- The pixels one sprite row covers on screen row `r`. -/
theorem drawRow_spec (b : Byte) (x0 r : Nat) (hr : r < 32) (acc : Framebuffer × Bool) :
    (∀ row col, (drawRow b x0 r acc).1.get row col =
      (acc.1.get row col ^^ (decide (row = r) && rowHit b x0 8 col))) ∧
    ((drawRow b x0 r acc).2 = true ↔
      acc.2 = true ∨ ∃ col, rowHit b x0 8 col = true ∧ acc.1.get r col = true) :=
  drawRow_loop_spec b x0 r hr acc 8

theorem spriteBit_zero (m : Memory) (addr x0 y0 row col : Nat) : spriteBit m addr x0 y0 0 row col = false := by
  rw [spriteBit, decide_eq_false (by omega), Bool.false_and]

theorem spriteBit_end (m : Memory) (addr x0 y0 n col : Nat) : spriteBit m addr x0 y0 n (y0 + n) col = false := by
  rw [spriteBit, decide_eq_false (by omega), Bool.false_and]

theorem spriteBit_succ_ne (m : Memory) (addr x0 : Nat) {y0 n row : Nat} (col : Nat) (h : row ≠ y0 + n) :
    spriteBit m addr x0 y0 (n + 1) row col = spriteBit m addr x0 y0 n row col := by
  unfold spriteBit
  congr 1
  simp only [decide_eq_decide]
  omega

theorem spriteBit_succ_end (m : Memory) (addr x0 y0 n : Nat) {col : Nat} (h : col < 64) :
    spriteBit m addr x0 y0 (n + 1) (y0 + n) col = rowHit (m.read (addr + n)) x0 8 col := by
  unfold spriteBit rowHit
  rw [Nat.add_sub_cancel_left]
  congr 1
  simp only [decide_eq_decide]
  omega

theorem rowHit_lt (b : Byte) {x0 k col : Nat} (h : rowHit b x0 k col = true) : col < 64 := by
  simp only [rowHit, Bool.and_eq_true, decide_eq_true_eq] at h
  omega

/-- A sprite drawn: inside the grid each pixel is toggled exactly where its sprite bit is 1, and the collision is
whether some such pixel was lit. -/
theorem drawSprite_spec (m : Memory) (addr x0 y0 n : Nat) (f : Framebuffer) :
    (∀ row col, row < 32 → col < 64 → (drawSprite m addr x0 y0 n f).1.get row col =
      (f.get row col ^^ spriteBit m addr x0 y0 n row col)) ∧
    ((drawSprite m addr x0 y0 n f).2 = true ↔ ∃ row col, row < 32 ∧ col < 64 ∧
      spriteBit m addr x0 y0 n row col = true ∧ f.get row col = true) := by
  induction n with
  | zero => simp [drawSprite, spriteBit_zero]
  | succ n ih =>
    obtain ⟨ih1, ih2⟩ := ih
    have unfold_last : drawSprite m addr x0 y0 (n + 1) f =
        if y0 + n ≤ 31 then drawRow (m.read (addr + n)) x0 (y0 + n) (drawSprite m addr x0 y0 n f)
        else drawSprite m addr x0 y0 n f := by
      simp [drawSprite, List.range_succ]
    rw [unfold_last]
    by_cases hr : y0 + n ≤ 31
    · rw [if_pos hr]
      obtain ⟨d1, d2⟩ := drawRow_spec (m.read (addr + n)) x0 (y0 + n) (by omega) (drawSprite m addr x0 y0 n f)
      refine ⟨fun row col h1 h2 => ?_, ?_⟩
      · rw [d1, ih1 row col h1 h2]
        by_cases h : row = y0 + n
        · subst h; simp [spriteBit_end, spriteBit_succ_end _ _ _ _ _ h2]
        · simp [h, spriteBit_succ_ne]
      · rw [d2, ih2]
        constructor
        · rintro (⟨row, col, h1, h2, hb, hf⟩ | ⟨col, hb, hf⟩)
          · refine ⟨row, col, h1, h2, ?_, hf⟩
            rwa [spriteBit_succ_ne]
            rintro rfl; simp [spriteBit_end] at hb
          · have hc := rowHit_lt _ hb
            refine ⟨y0 + n, col, by omega, hc, by rwa [spriteBit_succ_end _ _ _ _ _ hc], ?_⟩
            rwa [ih1 _ _ (by omega) hc, spriteBit_end, Bool.xor_false] at hf
        · rintro ⟨row, col, h1, h2, hb, hf⟩
          by_cases h : row = y0 + n
          · subst h
            refine .inr ⟨col, by rwa [spriteBit_succ_end _ _ _ _ _ h2] at hb, ?_⟩
            rwa [ih1 _ _ h1 h2, spriteBit_end, Bool.xor_false]
          · exact .inl ⟨row, col, h1, h2, by rwa [spriteBit_succ_ne _ _ _ _ h] at hb, hf⟩
    · rw [if_neg hr]
      have same : ∀ row col, row < 32 → spriteBit m addr x0 y0 (n + 1) row col = spriteBit m addr x0 y0 n row col :=
        fun row col h => spriteBit_succ_ne _ _ _ _ (by omega)
      refine ⟨fun row col h1 h2 => by rw [same _ _ h1]; exact ih1 row col h1 h2, ?_⟩
      rw [ih2]
      exact ⟨fun ⟨row, col, h1, h2, hb, hf⟩ => ⟨row, col, h1, h2, by rwa [same _ _ h1], hf⟩,
        fun ⟨row, col, h1, h2, hb, hf⟩ => ⟨row, col, h1, h2, by rwa [same _ _ h1] at hb, hf⟩⟩

end Sys2Proof.Machine
end

