-- ==== Sys2Proof/Laws/Memory.lean ====
section
/-! SUPPORT. What the memory operations do: a byte written is the byte read, every other byte is left alone, and the
canonical form is kept. -/

namespace Sys2Proof.Machine

/-! ### The canonical list -/

theorem Memory.byteAt_without (m : Memory) (a b : Nat) :
    (m.without a).byteAt b = if b = a then unlistedByte a else m.byteAt b := by
  induction m with
  | nil => by_cases h : b = a <;> simp [Memory.without, Memory.byteAt, h]
  | cons c m ih =>
    have step : Memory.without (c :: m) a = if c.1 = a then Memory.without m a else c :: Memory.without m a := by
      by_cases h : c.1 = a <;> simp [Memory.without, h]
    rw [step]
    by_cases hc : c.1 = a
    · by_cases hb : b = a
      · subst hb; simp [hc, ih]
      · have : ¬ a = b := fun e => hb e.symm
        simp [hc, hb, ih, Memory.byteAt, this]
    · by_cases hb : b = a
      · subst hb; simp [hc, ih, Memory.byteAt]
      · simp [hc, hb, ih, Memory.byteAt]

theorem Memory.ne_of_mem_without {m : Memory} {a : Nat} {c : Host.Cell} (h : c ∈ m.without a) : c.1 ≠ a := by
  simpa using (List.mem_filter.mp h).2

/-- A cell entered into a list without its address is the one that is read there. -/
theorem Memory.byteAt_enter (m : Memory) (c : Host.Cell) (b : Nat) (h : ∀ d ∈ m, d.1 ≠ c.1) :
    (m.enter c).byteAt b = if b = c.1 then c.2 else m.byteAt b := by
  induction m with
  | nil => by_cases hb : b = c.1 <;> simp [Memory.enter, Memory.byteAt, hb, eq_comm]
  | cons d m ih =>
    have ih := ih fun e he => h e (List.mem_cons_of_mem _ he)
    have hd : d.1 ≠ c.1 := h d List.mem_cons_self
    by_cases hlt : c.1 < d.1
    · by_cases hb : b = c.1
      · simp [Memory.enter, hlt, Memory.byteAt, hb]
      · have : ¬ c.1 = b := fun e => hb e.symm
        simp [Memory.enter, hlt, Memory.byteAt, hb, this]
    · by_cases hb : b = c.1
      · subst hb; simp [Memory.enter, hlt, Memory.byteAt, ih, hd]
      · simp [Memory.enter, hlt, Memory.byteAt, ih, hb]

theorem Memory.byteAt_put (m : Memory) (a : Nat) (v : Byte) (b : Nat) :
    (m.put a v).byteAt b = if b = a then v else m.byteAt b := by
  unfold Memory.put
  split
  · next h => rw [Memory.byteAt_without, h]
  · rw [Memory.byteAt_enter _ (a, v) _ fun d hd => Memory.ne_of_mem_without hd, Memory.byteAt_without]
    by_cases hb : b = a <;> simp [hb]

/-! ### Reads and writes (20_memory.md R42) -/

/-- A read after one write: the byte written where both addresses name the same byte, else the old byte. -/
theorem Memory.read_write (m : Memory) (a : Nat) (v : Byte) (b : Nat) :
    (m.write a v).read b = if b % 4096 = a % 4096 then v else m.read b :=
  Memory.byteAt_put m _ v _

theorem Memory.read_mod (m : Memory) (a : Nat) : m.read (a % 4096) = m.read a := by
  simp [Memory.read, Config.memSize]

theorem Memory.read_add_mod (m : Memory) (a k : Nat) : m.read (a % 4096 + k) = m.read (a + k) := by
  simp [Memory.read, Config.memSize]

/-- A list of bytes written leaves every byte outside its addresses alone. -/
theorem Memory.read_writeList_outside (m : Memory) (a : Nat) (bs : List Byte) (b : Nat)
    (h : ∀ k, k < bs.length → (a + k) % 4096 ≠ b % 4096) : (m.writeList a bs).read b = m.read b := by
  induction bs generalizing m a with
  | nil => rfl
  | cons v bs ih =>
    rw [Memory.writeList, ih]
    · rw [Memory.read_write, if_neg]
      have := h 0 (by simp)
      simpa [eq_comm] using this
    · intro k hk
      have := h (k + 1) (by simpa using hk)
      rwa [show a + 1 + k = a + (k + 1) by omega]

/-- A list of at most 4096 bytes written is what is read back. -/
theorem Memory.read_writeList_inside (m : Memory) (a : Nat) (bs : List Byte) (hl : bs.length ≤ 4096) (k : Nat)
    (hk : k < bs.length) : (m.writeList a bs).read (a + k) = bs[k] := by
  induction bs generalizing m a k with
  | nil => simp at hk
  | cons v bs ih =>
    have hlen : bs.length + 1 ≤ 4096 := hl
    rw [Memory.writeList]
    cases k with
    | zero =>
      rw [Memory.read_writeList_outside, Memory.read_write]
      · simp
      · intro j hj; omega
    | succ k =>
      have := ih (m.write a v) (a + 1) (by omega) k (by simpa using hk)
      rw [show a + (k + 1) = a + 1 + k by omega, this]
      simp

/-- Overlaps aside, writing at wrapped addresses is writing at the addresses. -/
theorem Memory.write_mod (m : Memory) (a : Nat) (v : Byte) : m.write (a % 4096) v = m.write a v := by
  simp [Memory.write, Config.memSize]

/-! ### The canonical form is kept -/

theorem Memory.mem_enter {m : Memory} {c d : Host.Cell} : d ∈ m.enter c ↔ d = c ∨ d ∈ m := by
  induction m with
  | nil => simp [Memory.enter]
  | cons e m ih =>
    unfold Memory.enter
    split
    · simp
    · simp only [List.mem_cons, ih]; tauto

theorem Memory.wf_without {m : Memory} (a : Nat) (h : m.wf) : (m.without a).wf :=
  ⟨h.1.filter _, fun c hc => h.2 c (List.mem_filter.mp hc).1⟩

theorem Memory.pairwise_enter {m : Memory} (c : Host.Cell) (h : m.Pairwise fun d e => d.1 < e.1)
    (hc : ∀ d ∈ m, d.1 ≠ c.1) : (m.enter c).Pairwise fun d e => d.1 < e.1 := by
  induction m with
  | nil => simp [Memory.enter]
  | cons d m ih =>
    obtain ⟨hd, hm⟩ := List.pairwise_cons.mp h
    unfold Memory.enter
    split
    · next hlt =>
      refine List.pairwise_cons.mpr ⟨fun e he => ?_, h⟩
      obtain rfl | he := List.mem_cons.mp he
      · exact hlt
      · exact Nat.lt_trans hlt (hd e he)
    · next hlt =>
      refine List.pairwise_cons.mpr ⟨fun e he => ?_, ih hm fun e he => hc e (List.mem_cons_of_mem _ he)⟩
      obtain rfl | he := Memory.mem_enter.mp he
      · have := hc d List.mem_cons_self; omega
      · exact hd e he

theorem Memory.wf_put {m : Memory} {a : Nat} (v : Byte) (ha : a < Config.memSize) (h : m.wf) : (m.put a v).wf := by
  unfold Memory.put
  split
  · exact Memory.wf_without a h
  · next hv =>
    refine ⟨Memory.pairwise_enter _ (Memory.wf_without a h).1 fun d hd => Memory.ne_of_mem_without hd, fun c hc => ?_⟩
    obtain rfl | hc := Memory.mem_enter.mp hc
    · exact ⟨ha, hv⟩
    · exact (Memory.wf_without a h).2 c hc

theorem Memory.wf_write {m : Memory} (a : Nat) (v : Byte) (h : m.wf) : (m.write a v).wf :=
  Memory.wf_put v (Nat.mod_lt _ (by decide)) h

theorem Memory.wf_writeList {m : Memory} (a : Nat) (bs : List Byte) (h : m.wf) : (m.writeList a bs).wf := by
  induction bs generalizing m a with
  | nil => exact h
  | cons v bs ih => exact ih (a + 1) (Memory.wf_write a v h)

theorem Memory.wf_nil : Memory.wf [] := ⟨List.Pairwise.nil, fun _ hc => absurd hc List.not_mem_nil⟩

/-- In canonical form a listed cell is what its address reads as. -/
theorem Memory.byteAt_of_mem {m : Memory} (h : m.wf) {c : Host.Cell} (hc : c ∈ m) : m.byteAt c.1 = c.2 := by
  induction m with
  | nil => exact absurd hc List.not_mem_nil
  | cons d m ih =>
    obtain ⟨hd, hm⟩ := List.pairwise_cons.mp h.1
    obtain rfl | hc := List.mem_cons.mp hc
    · simp [Memory.byteAt]
    · have : d.1 ≠ c.1 := Nat.ne_of_lt (hd c hc)
      simpa [Memory.byteAt, this] using ih ⟨hm, fun e he => h.2 e (List.mem_cons_of_mem _ he)⟩ hc

end Sys2Proof.Machine
end

