-- ==== Sys2Proof/Laws/State.lean ====
section
/-! SUPPORT. One lemma per field per plain update, and the fields of the register write, each true by rfl, so that no
proof unfolds a record update. -/

namespace Sys2Proof.Machine

/-! ### `setV` -/

@[simp] theorem State.setV_v (s : State) (x : Vector Byte 16) : (s.setV x).v = x := rfl
@[simp] theorem State.setV_i (s : State) (x : Vector Byte 16) : (s.setV x).i = s.i := rfl
@[simp] theorem State.setV_pc (s : State) (x : Vector Byte 16) : (s.setV x).pc = s.pc := rfl
@[simp] theorem State.setV_stack (s : State) (x : Vector Byte 16) : (s.setV x).stack = s.stack := rfl
@[simp] theorem State.setV_sp (s : State) (x : Vector Byte 16) : (s.setV x).sp = s.sp := rfl
@[simp] theorem State.setV_dt (s : State) (x : Vector Byte 16) : (s.setV x).dt = s.dt := rfl
@[simp] theorem State.setV_st (s : State) (x : Vector Byte 16) : (s.setV x).st = s.st := rfl
@[simp] theorem State.setV_key (s : State) (x : Vector Byte 16) : (s.setV x).key = s.key := rfl
@[simp] theorem State.setV_fb (s : State) (x : Vector Byte 16) : (s.setV x).fb = s.fb := rfl
@[simp] theorem State.setV_mem (s : State) (x : Vector Byte 16) : (s.setV x).mem = s.mem := rfl
@[simp] theorem State.setV_rng (s : State) (x : Vector Byte 16) : (s.setV x).rng = s.rng := rfl
@[simp] theorem State.setV_opcode (s : State) (x : Vector Byte 16) : (s.setV x).opcode = s.opcode := rfl
@[simp] theorem State.setV_report (s : State) (x : Vector Byte 16) : (s.setV x).report = s.report := rfl

/-! ### `setI` -/

@[simp] theorem State.setI_v (s : State) (x : Word) : (s.setI x).v = s.v := rfl
@[simp] theorem State.setI_i (s : State) (x : Word) : (s.setI x).i = x := rfl
@[simp] theorem State.setI_pc (s : State) (x : Word) : (s.setI x).pc = s.pc := rfl
@[simp] theorem State.setI_stack (s : State) (x : Word) : (s.setI x).stack = s.stack := rfl
@[simp] theorem State.setI_sp (s : State) (x : Word) : (s.setI x).sp = s.sp := rfl
@[simp] theorem State.setI_dt (s : State) (x : Word) : (s.setI x).dt = s.dt := rfl
@[simp] theorem State.setI_st (s : State) (x : Word) : (s.setI x).st = s.st := rfl
@[simp] theorem State.setI_key (s : State) (x : Word) : (s.setI x).key = s.key := rfl
@[simp] theorem State.setI_fb (s : State) (x : Word) : (s.setI x).fb = s.fb := rfl
@[simp] theorem State.setI_mem (s : State) (x : Word) : (s.setI x).mem = s.mem := rfl
@[simp] theorem State.setI_rng (s : State) (x : Word) : (s.setI x).rng = s.rng := rfl
@[simp] theorem State.setI_opcode (s : State) (x : Word) : (s.setI x).opcode = s.opcode := rfl
@[simp] theorem State.setI_report (s : State) (x : Word) : (s.setI x).report = s.report := rfl

/-! ### `setPc` -/

@[simp] theorem State.setPc_v (s : State) (x : Word) : (s.setPc x).v = s.v := rfl
@[simp] theorem State.setPc_i (s : State) (x : Word) : (s.setPc x).i = s.i := rfl
@[simp] theorem State.setPc_pc (s : State) (x : Word) : (s.setPc x).pc = x := rfl
@[simp] theorem State.setPc_stack (s : State) (x : Word) : (s.setPc x).stack = s.stack := rfl
@[simp] theorem State.setPc_sp (s : State) (x : Word) : (s.setPc x).sp = s.sp := rfl
@[simp] theorem State.setPc_dt (s : State) (x : Word) : (s.setPc x).dt = s.dt := rfl
@[simp] theorem State.setPc_st (s : State) (x : Word) : (s.setPc x).st = s.st := rfl
@[simp] theorem State.setPc_key (s : State) (x : Word) : (s.setPc x).key = s.key := rfl
@[simp] theorem State.setPc_fb (s : State) (x : Word) : (s.setPc x).fb = s.fb := rfl
@[simp] theorem State.setPc_mem (s : State) (x : Word) : (s.setPc x).mem = s.mem := rfl
@[simp] theorem State.setPc_rng (s : State) (x : Word) : (s.setPc x).rng = s.rng := rfl
@[simp] theorem State.setPc_opcode (s : State) (x : Word) : (s.setPc x).opcode = s.opcode := rfl
@[simp] theorem State.setPc_report (s : State) (x : Word) : (s.setPc x).report = s.report := rfl

/-! ### `setStack` -/

@[simp] theorem State.setStack_v (s : State) (x : Vector Word 16) : (s.setStack x).v = s.v := rfl
@[simp] theorem State.setStack_i (s : State) (x : Vector Word 16) : (s.setStack x).i = s.i := rfl
@[simp] theorem State.setStack_pc (s : State) (x : Vector Word 16) : (s.setStack x).pc = s.pc := rfl
@[simp] theorem State.setStack_stack (s : State) (x : Vector Word 16) : (s.setStack x).stack = x := rfl
@[simp] theorem State.setStack_sp (s : State) (x : Vector Word 16) : (s.setStack x).sp = s.sp := rfl
@[simp] theorem State.setStack_dt (s : State) (x : Vector Word 16) : (s.setStack x).dt = s.dt := rfl
@[simp] theorem State.setStack_st (s : State) (x : Vector Word 16) : (s.setStack x).st = s.st := rfl
@[simp] theorem State.setStack_key (s : State) (x : Vector Word 16) : (s.setStack x).key = s.key := rfl
@[simp] theorem State.setStack_fb (s : State) (x : Vector Word 16) : (s.setStack x).fb = s.fb := rfl
@[simp] theorem State.setStack_mem (s : State) (x : Vector Word 16) : (s.setStack x).mem = s.mem := rfl
@[simp] theorem State.setStack_rng (s : State) (x : Vector Word 16) : (s.setStack x).rng = s.rng := rfl
@[simp] theorem State.setStack_opcode (s : State) (x : Vector Word 16) : (s.setStack x).opcode = s.opcode := rfl
@[simp] theorem State.setStack_report (s : State) (x : Vector Word 16) : (s.setStack x).report = s.report := rfl

/-! ### `setSp` -/

@[simp] theorem State.setSp_v (s : State) (x : Fin 17) : (s.setSp x).v = s.v := rfl
@[simp] theorem State.setSp_i (s : State) (x : Fin 17) : (s.setSp x).i = s.i := rfl
@[simp] theorem State.setSp_pc (s : State) (x : Fin 17) : (s.setSp x).pc = s.pc := rfl
@[simp] theorem State.setSp_stack (s : State) (x : Fin 17) : (s.setSp x).stack = s.stack := rfl
@[simp] theorem State.setSp_sp (s : State) (x : Fin 17) : (s.setSp x).sp = x := rfl
@[simp] theorem State.setSp_dt (s : State) (x : Fin 17) : (s.setSp x).dt = s.dt := rfl
@[simp] theorem State.setSp_st (s : State) (x : Fin 17) : (s.setSp x).st = s.st := rfl
@[simp] theorem State.setSp_key (s : State) (x : Fin 17) : (s.setSp x).key = s.key := rfl
@[simp] theorem State.setSp_fb (s : State) (x : Fin 17) : (s.setSp x).fb = s.fb := rfl
@[simp] theorem State.setSp_mem (s : State) (x : Fin 17) : (s.setSp x).mem = s.mem := rfl
@[simp] theorem State.setSp_rng (s : State) (x : Fin 17) : (s.setSp x).rng = s.rng := rfl
@[simp] theorem State.setSp_opcode (s : State) (x : Fin 17) : (s.setSp x).opcode = s.opcode := rfl
@[simp] theorem State.setSp_report (s : State) (x : Fin 17) : (s.setSp x).report = s.report := rfl

/-! ### `setDt` -/

@[simp] theorem State.setDt_v (s : State) (x : Byte) : (s.setDt x).v = s.v := rfl
@[simp] theorem State.setDt_i (s : State) (x : Byte) : (s.setDt x).i = s.i := rfl
@[simp] theorem State.setDt_pc (s : State) (x : Byte) : (s.setDt x).pc = s.pc := rfl
@[simp] theorem State.setDt_stack (s : State) (x : Byte) : (s.setDt x).stack = s.stack := rfl
@[simp] theorem State.setDt_sp (s : State) (x : Byte) : (s.setDt x).sp = s.sp := rfl
@[simp] theorem State.setDt_dt (s : State) (x : Byte) : (s.setDt x).dt = x := rfl
@[simp] theorem State.setDt_st (s : State) (x : Byte) : (s.setDt x).st = s.st := rfl
@[simp] theorem State.setDt_key (s : State) (x : Byte) : (s.setDt x).key = s.key := rfl
@[simp] theorem State.setDt_fb (s : State) (x : Byte) : (s.setDt x).fb = s.fb := rfl
@[simp] theorem State.setDt_mem (s : State) (x : Byte) : (s.setDt x).mem = s.mem := rfl
@[simp] theorem State.setDt_rng (s : State) (x : Byte) : (s.setDt x).rng = s.rng := rfl
@[simp] theorem State.setDt_opcode (s : State) (x : Byte) : (s.setDt x).opcode = s.opcode := rfl
@[simp] theorem State.setDt_report (s : State) (x : Byte) : (s.setDt x).report = s.report := rfl

/-! ### `setSt` -/

@[simp] theorem State.setSt_v (s : State) (x : Byte) : (s.setSt x).v = s.v := rfl
@[simp] theorem State.setSt_i (s : State) (x : Byte) : (s.setSt x).i = s.i := rfl
@[simp] theorem State.setSt_pc (s : State) (x : Byte) : (s.setSt x).pc = s.pc := rfl
@[simp] theorem State.setSt_stack (s : State) (x : Byte) : (s.setSt x).stack = s.stack := rfl
@[simp] theorem State.setSt_sp (s : State) (x : Byte) : (s.setSt x).sp = s.sp := rfl
@[simp] theorem State.setSt_dt (s : State) (x : Byte) : (s.setSt x).dt = s.dt := rfl
@[simp] theorem State.setSt_st (s : State) (x : Byte) : (s.setSt x).st = x := rfl
@[simp] theorem State.setSt_key (s : State) (x : Byte) : (s.setSt x).key = s.key := rfl
@[simp] theorem State.setSt_fb (s : State) (x : Byte) : (s.setSt x).fb = s.fb := rfl
@[simp] theorem State.setSt_mem (s : State) (x : Byte) : (s.setSt x).mem = s.mem := rfl
@[simp] theorem State.setSt_rng (s : State) (x : Byte) : (s.setSt x).rng = s.rng := rfl
@[simp] theorem State.setSt_opcode (s : State) (x : Byte) : (s.setSt x).opcode = s.opcode := rfl
@[simp] theorem State.setSt_report (s : State) (x : Byte) : (s.setSt x).report = s.report := rfl

/-! ### `setKey` -/

@[simp] theorem State.setKey_v (s : State) (x : Vector Bool 16) : (s.setKey x).v = s.v := rfl
@[simp] theorem State.setKey_i (s : State) (x : Vector Bool 16) : (s.setKey x).i = s.i := rfl
@[simp] theorem State.setKey_pc (s : State) (x : Vector Bool 16) : (s.setKey x).pc = s.pc := rfl
@[simp] theorem State.setKey_stack (s : State) (x : Vector Bool 16) : (s.setKey x).stack = s.stack := rfl
@[simp] theorem State.setKey_sp (s : State) (x : Vector Bool 16) : (s.setKey x).sp = s.sp := rfl
@[simp] theorem State.setKey_dt (s : State) (x : Vector Bool 16) : (s.setKey x).dt = s.dt := rfl
@[simp] theorem State.setKey_st (s : State) (x : Vector Bool 16) : (s.setKey x).st = s.st := rfl
@[simp] theorem State.setKey_key (s : State) (x : Vector Bool 16) : (s.setKey x).key = x := rfl
@[simp] theorem State.setKey_fb (s : State) (x : Vector Bool 16) : (s.setKey x).fb = s.fb := rfl
@[simp] theorem State.setKey_mem (s : State) (x : Vector Bool 16) : (s.setKey x).mem = s.mem := rfl
@[simp] theorem State.setKey_rng (s : State) (x : Vector Bool 16) : (s.setKey x).rng = s.rng := rfl
@[simp] theorem State.setKey_opcode (s : State) (x : Vector Bool 16) : (s.setKey x).opcode = s.opcode := rfl
@[simp] theorem State.setKey_report (s : State) (x : Vector Bool 16) : (s.setKey x).report = s.report := rfl

/-! ### `setFb` -/

@[simp] theorem State.setFb_v (s : State) (x : Framebuffer) : (s.setFb x).v = s.v := rfl
@[simp] theorem State.setFb_i (s : State) (x : Framebuffer) : (s.setFb x).i = s.i := rfl
@[simp] theorem State.setFb_pc (s : State) (x : Framebuffer) : (s.setFb x).pc = s.pc := rfl
@[simp] theorem State.setFb_stack (s : State) (x : Framebuffer) : (s.setFb x).stack = s.stack := rfl
@[simp] theorem State.setFb_sp (s : State) (x : Framebuffer) : (s.setFb x).sp = s.sp := rfl
@[simp] theorem State.setFb_dt (s : State) (x : Framebuffer) : (s.setFb x).dt = s.dt := rfl
@[simp] theorem State.setFb_st (s : State) (x : Framebuffer) : (s.setFb x).st = s.st := rfl
@[simp] theorem State.setFb_key (s : State) (x : Framebuffer) : (s.setFb x).key = s.key := rfl
@[simp] theorem State.setFb_fb (s : State) (x : Framebuffer) : (s.setFb x).fb = x := rfl
@[simp] theorem State.setFb_mem (s : State) (x : Framebuffer) : (s.setFb x).mem = s.mem := rfl
@[simp] theorem State.setFb_rng (s : State) (x : Framebuffer) : (s.setFb x).rng = s.rng := rfl
@[simp] theorem State.setFb_opcode (s : State) (x : Framebuffer) : (s.setFb x).opcode = s.opcode := rfl
@[simp] theorem State.setFb_report (s : State) (x : Framebuffer) : (s.setFb x).report = s.report := rfl

/-! ### `setMem` -/

@[simp] theorem State.setMem_v (s : State) (x : Memory) : (s.setMem x).v = s.v := rfl
@[simp] theorem State.setMem_i (s : State) (x : Memory) : (s.setMem x).i = s.i := rfl
@[simp] theorem State.setMem_pc (s : State) (x : Memory) : (s.setMem x).pc = s.pc := rfl
@[simp] theorem State.setMem_stack (s : State) (x : Memory) : (s.setMem x).stack = s.stack := rfl
@[simp] theorem State.setMem_sp (s : State) (x : Memory) : (s.setMem x).sp = s.sp := rfl
@[simp] theorem State.setMem_dt (s : State) (x : Memory) : (s.setMem x).dt = s.dt := rfl
@[simp] theorem State.setMem_st (s : State) (x : Memory) : (s.setMem x).st = s.st := rfl
@[simp] theorem State.setMem_key (s : State) (x : Memory) : (s.setMem x).key = s.key := rfl
@[simp] theorem State.setMem_fb (s : State) (x : Memory) : (s.setMem x).fb = s.fb := rfl
@[simp] theorem State.setMem_mem (s : State) (x : Memory) : (s.setMem x).mem = x := rfl
@[simp] theorem State.setMem_rng (s : State) (x : Memory) : (s.setMem x).rng = s.rng := rfl
@[simp] theorem State.setMem_opcode (s : State) (x : Memory) : (s.setMem x).opcode = s.opcode := rfl
@[simp] theorem State.setMem_report (s : State) (x : Memory) : (s.setMem x).report = s.report := rfl

/-! ### `setRng` -/

@[simp] theorem State.setRng_v (s : State) (x : Nat) : (s.setRng x).v = s.v := rfl
@[simp] theorem State.setRng_i (s : State) (x : Nat) : (s.setRng x).i = s.i := rfl
@[simp] theorem State.setRng_pc (s : State) (x : Nat) : (s.setRng x).pc = s.pc := rfl
@[simp] theorem State.setRng_stack (s : State) (x : Nat) : (s.setRng x).stack = s.stack := rfl
@[simp] theorem State.setRng_sp (s : State) (x : Nat) : (s.setRng x).sp = s.sp := rfl
@[simp] theorem State.setRng_dt (s : State) (x : Nat) : (s.setRng x).dt = s.dt := rfl
@[simp] theorem State.setRng_st (s : State) (x : Nat) : (s.setRng x).st = s.st := rfl
@[simp] theorem State.setRng_key (s : State) (x : Nat) : (s.setRng x).key = s.key := rfl
@[simp] theorem State.setRng_fb (s : State) (x : Nat) : (s.setRng x).fb = s.fb := rfl
@[simp] theorem State.setRng_mem (s : State) (x : Nat) : (s.setRng x).mem = s.mem := rfl
@[simp] theorem State.setRng_rng (s : State) (x : Nat) : (s.setRng x).rng = x := rfl
@[simp] theorem State.setRng_opcode (s : State) (x : Nat) : (s.setRng x).opcode = s.opcode := rfl
@[simp] theorem State.setRng_report (s : State) (x : Nat) : (s.setRng x).report = s.report := rfl

/-! ### `setOpcode` -/

@[simp] theorem State.setOpcode_v (s : State) (x : Word) : (s.setOpcode x).v = s.v := rfl
@[simp] theorem State.setOpcode_i (s : State) (x : Word) : (s.setOpcode x).i = s.i := rfl
@[simp] theorem State.setOpcode_pc (s : State) (x : Word) : (s.setOpcode x).pc = s.pc := rfl
@[simp] theorem State.setOpcode_stack (s : State) (x : Word) : (s.setOpcode x).stack = s.stack := rfl
@[simp] theorem State.setOpcode_sp (s : State) (x : Word) : (s.setOpcode x).sp = s.sp := rfl
@[simp] theorem State.setOpcode_dt (s : State) (x : Word) : (s.setOpcode x).dt = s.dt := rfl
@[simp] theorem State.setOpcode_st (s : State) (x : Word) : (s.setOpcode x).st = s.st := rfl
@[simp] theorem State.setOpcode_key (s : State) (x : Word) : (s.setOpcode x).key = s.key := rfl
@[simp] theorem State.setOpcode_fb (s : State) (x : Word) : (s.setOpcode x).fb = s.fb := rfl
@[simp] theorem State.setOpcode_mem (s : State) (x : Word) : (s.setOpcode x).mem = s.mem := rfl
@[simp] theorem State.setOpcode_rng (s : State) (x : Word) : (s.setOpcode x).rng = s.rng := rfl
@[simp] theorem State.setOpcode_opcode (s : State) (x : Word) : (s.setOpcode x).opcode = x := rfl
@[simp] theorem State.setOpcode_report (s : State) (x : Word) : (s.setOpcode x).report = s.report := rfl

/-! ### `setReport` -/

@[simp] theorem State.setReport_v (s : State) (x : BitVec 2) : (s.setReport x).v = s.v := rfl
@[simp] theorem State.setReport_i (s : State) (x : BitVec 2) : (s.setReport x).i = s.i := rfl
@[simp] theorem State.setReport_pc (s : State) (x : BitVec 2) : (s.setReport x).pc = s.pc := rfl
@[simp] theorem State.setReport_stack (s : State) (x : BitVec 2) : (s.setReport x).stack = s.stack := rfl
@[simp] theorem State.setReport_sp (s : State) (x : BitVec 2) : (s.setReport x).sp = s.sp := rfl
@[simp] theorem State.setReport_dt (s : State) (x : BitVec 2) : (s.setReport x).dt = s.dt := rfl
@[simp] theorem State.setReport_st (s : State) (x : BitVec 2) : (s.setReport x).st = s.st := rfl
@[simp] theorem State.setReport_key (s : State) (x : BitVec 2) : (s.setReport x).key = s.key := rfl
@[simp] theorem State.setReport_fb (s : State) (x : BitVec 2) : (s.setReport x).fb = s.fb := rfl
@[simp] theorem State.setReport_mem (s : State) (x : BitVec 2) : (s.setReport x).mem = s.mem := rfl
@[simp] theorem State.setReport_rng (s : State) (x : BitVec 2) : (s.setReport x).rng = s.rng := rfl
@[simp] theorem State.setReport_opcode (s : State) (x : BitVec 2) : (s.setReport x).opcode = s.opcode := rfl
@[simp] theorem State.setReport_report (s : State) (x : BitVec 2) : (s.setReport x).report = x := rfl

/-! ### `writeV` -/

@[simp] theorem State.writeV_i (s : State) (x : Nibble) (b : Byte) : (s.writeV x b).i = s.i := rfl
@[simp] theorem State.writeV_pc (s : State) (x : Nibble) (b : Byte) : (s.writeV x b).pc = s.pc := rfl
@[simp] theorem State.writeV_stack (s : State) (x : Nibble) (b : Byte) : (s.writeV x b).stack = s.stack := rfl
@[simp] theorem State.writeV_sp (s : State) (x : Nibble) (b : Byte) : (s.writeV x b).sp = s.sp := rfl
@[simp] theorem State.writeV_dt (s : State) (x : Nibble) (b : Byte) : (s.writeV x b).dt = s.dt := rfl
@[simp] theorem State.writeV_st (s : State) (x : Nibble) (b : Byte) : (s.writeV x b).st = s.st := rfl
@[simp] theorem State.writeV_key (s : State) (x : Nibble) (b : Byte) : (s.writeV x b).key = s.key := rfl
@[simp] theorem State.writeV_fb (s : State) (x : Nibble) (b : Byte) : (s.writeV x b).fb = s.fb := rfl
@[simp] theorem State.writeV_mem (s : State) (x : Nibble) (b : Byte) : (s.writeV x b).mem = s.mem := rfl
@[simp] theorem State.writeV_rng (s : State) (x : Nibble) (b : Byte) : (s.writeV x b).rng = s.rng := rfl
@[simp] theorem State.writeV_opcode (s : State) (x : Nibble) (b : Byte) : (s.writeV x b).opcode = s.opcode := rfl
@[simp] theorem State.writeV_report (s : State) (x : Nibble) (b : Byte) : (s.writeV x b).report = s.report := rfl

/-! ### Reading a register after an update that is no register write -/

@[simp] theorem State.readV_setI (s : State) (x : Word) (r : Nibble) : (s.setI x).readV r = s.readV r := rfl
@[simp] theorem State.readV_setPc (s : State) (x : Word) (r : Nibble) : (s.setPc x).readV r = s.readV r := rfl
@[simp] theorem State.readV_setStack (s : State) (x : Vector Word 16) (r : Nibble) : (s.setStack x).readV r = s.readV r := rfl
@[simp] theorem State.readV_setSp (s : State) (x : Fin 17) (r : Nibble) : (s.setSp x).readV r = s.readV r := rfl
@[simp] theorem State.readV_setDt (s : State) (x : Byte) (r : Nibble) : (s.setDt x).readV r = s.readV r := rfl
@[simp] theorem State.readV_setSt (s : State) (x : Byte) (r : Nibble) : (s.setSt x).readV r = s.readV r := rfl
@[simp] theorem State.readV_setKey (s : State) (x : Vector Bool 16) (r : Nibble) : (s.setKey x).readV r = s.readV r := rfl
@[simp] theorem State.readV_setFb (s : State) (x : Framebuffer) (r : Nibble) : (s.setFb x).readV r = s.readV r := rfl
@[simp] theorem State.readV_setMem (s : State) (x : Memory) (r : Nibble) : (s.setMem x).readV r = s.readV r := rfl
@[simp] theorem State.readV_setRng (s : State) (x : Nat) (r : Nibble) : (s.setRng x).readV r = s.readV r := rfl
@[simp] theorem State.readV_setOpcode (s : State) (x : Word) (r : Nibble) : (s.setOpcode x).readV r = s.readV r := rfl
@[simp] theorem State.readV_setReport (s : State) (x : BitVec 2) (r : Nibble) : (s.setReport x).readV r = s.readV r := rfl

end Sys2Proof.Machine
end

