-- ==== Sys2Proof/Laws/Machine.lean ====
section
/-! SUPPORT. What the shared operations of the machine do: the fetch, the skip, the stack, the keypad, the tick, and the
frames of plain updates. -/

namespace Sys2Proof.Machine

/-! ### The fetch (40_cycle.md R80) -/

/-- A step is the meaning of the fetched word on the fetched state. -/
theorem step_eq (s : State) : step s = exec (decodeWord s.fetchWord) s.fetched := rfl

theorem core_run_zero (s : State) : Host.Core.run Sys2Proof.core 0 s = .next s := rfl

/-- A run takes one step and goes on from there. -/
theorem core_run_succ {s t : State} (n : Nat) (h : step s = .next t) :
    Host.Core.run Sys2Proof.core (n + 1) s = Host.Core.run Sys2Proof.core n t := by
  have e : Sys2Proof.core.step s = .next t := h
  simp only [Host.Core.run, e]

@[simp] theorem State.fetched_pc (s : State) : s.fetched.pc = s.pc + 2 := rfl
@[simp] theorem State.fetched_opcode (s : State) : s.fetched.opcode = s.fetchWord := rfl
@[simp] theorem State.fetched_report (s : State) : s.fetched.report = 0 := rfl
@[simp] theorem State.fetched_v (s : State) : s.fetched.v = s.v := rfl
@[simp] theorem State.fetched_i (s : State) : s.fetched.i = s.i := rfl
@[simp] theorem State.fetched_stack (s : State) : s.fetched.stack = s.stack := rfl
@[simp] theorem State.fetched_sp (s : State) : s.fetched.sp = s.sp := rfl
@[simp] theorem State.fetched_dt (s : State) : s.fetched.dt = s.dt := rfl
@[simp] theorem State.fetched_st (s : State) : s.fetched.st = s.st := rfl
@[simp] theorem State.fetched_key (s : State) : s.fetched.key = s.key := rfl
@[simp] theorem State.fetched_fb (s : State) : s.fetched.fb = s.fb := rfl
@[simp] theorem State.fetched_mem (s : State) : s.fetched.mem = s.mem := rfl
@[simp] theorem State.fetched_rng (s : State) : s.fetched.rng = s.rng := rfl
@[simp] theorem State.readV_fetched (s : State) (r : Nibble) : s.fetched.readV r = s.readV r := rfl
@[simp] theorem State.keyDown_fetched (s : State) (k : Nibble) : s.fetched.keyDown k = s.keyDown k := rfl
@[simp] theorem State.firstKey_fetched (s : State) : s.fetched.firstKey = s.firstKey := rfl

/-! ### Frames of plain updates -/

theorem KeepsAllBut.refl (fs : List Field) (s : State) : KeepsAllBut fs s s := fun f _ => by cases f <;> rfl

/-- A frame may be read with more fields listed. -/
theorem KeepsAllBut.mono {fs gs : List Field} {s t : State} (h : KeepsAllBut fs s t) (hs : ∀ f ∈ fs, f ∈ gs) :
    KeepsAllBut gs s t := fun f hf => h f fun hm => hf (hs f hm)

theorem Field.Same.trans {f : Field} {s t u : State} (h : f.Same s t) (g : f.Same t u) : f.Same s u := by
  cases f <;> exact Eq.trans g h

/-- Frames compose: what neither listed is kept. -/
theorem KeepsAllBut.trans {fs gs : List Field} {s t u : State} (h : KeepsAllBut fs s t) (g : KeepsAllBut gs t u) :
    KeepsAllBut (fs ++ gs) s u := fun f hf =>
  (h f fun hm => hf (List.mem_append_left _ hm)).trans (g f fun hm => hf (List.mem_append_right _ hm))

theorem keepsAllBut_setV (s : State) (x : Vector Byte 16) : KeepsAllBut [.v] s (s.setV x) := fun f hf => by
  cases f <;> first | rfl | simp at hf
theorem keepsAllBut_writeV (s : State) (x : Nibble) (b : Byte) : KeepsAllBut [.v] s (s.writeV x b) :=
  keepsAllBut_setV s _
theorem keepsAllBut_setI (s : State) (x : Word) : KeepsAllBut [.i] s (s.setI x) := fun f hf => by
  cases f <;> first | rfl | simp at hf
theorem keepsAllBut_setPc (s : State) (x : Word) : KeepsAllBut [.pc] s (s.setPc x) := fun f hf => by
  cases f <;> first | rfl | simp at hf
theorem keepsAllBut_setStack (s : State) (x : Vector Word 16) : KeepsAllBut [.stack] s (s.setStack x) := fun f hf => by
  cases f <;> first | rfl | simp at hf
theorem keepsAllBut_setSp (s : State) (x : Fin 17) : KeepsAllBut [.sp] s (s.setSp x) := fun f hf => by
  cases f <;> first | rfl | simp at hf
theorem keepsAllBut_setDt (s : State) (x : Byte) : KeepsAllBut [.dt] s (s.setDt x) := fun f hf => by
  cases f <;> first | rfl | simp at hf
theorem keepsAllBut_setSt (s : State) (x : Byte) : KeepsAllBut [.st] s (s.setSt x) := fun f hf => by
  cases f <;> first | rfl | simp at hf
theorem keepsAllBut_setKey (s : State) (x : Vector Bool 16) : KeepsAllBut [.key] s (s.setKey x) := fun f hf => by
  cases f <;> first | rfl | simp at hf
theorem keepsAllBut_setFb (s : State) (x : Framebuffer) : KeepsAllBut [.fb] s (s.setFb x) := fun f hf => by
  cases f <;> first | rfl | simp at hf
theorem keepsAllBut_setMem (s : State) (x : Memory) : KeepsAllBut [.mem] s (s.setMem x) := fun f hf => by
  cases f <;> first | rfl | simp at hf
theorem keepsAllBut_setRng (s : State) (x : Nat) : KeepsAllBut [.rng] s (s.setRng x) := fun f hf => by
  cases f <;> first | rfl | simp at hf
theorem keepsAllBut_setReport (s : State) (x : BitVec 2) : KeepsAllBut [.report] s (s.setReport x) := fun f hf => by
  cases f <;> first | rfl | simp at hf

/-- What the fetch changes. -/
theorem keepsAllBut_fetched (s : State) : KeepsAllBut [.pc, .opcode, .report] s s.fetched := fun f hf => by
  cases f <;> first | rfl | simp at hf

/-! ### The skip (41_control.md R98) -/

theorem State.skipIf_eq (s : State) (c : Bool) : s.skipIf c = s.setPc (if c then s.pc + 2 else s.pc) := by
  cases c <;> rfl

/-! ### The two outcomes of CALL and of RET (41_control.md R92, R90) -/

theorem execCall_room {s : State} (nnn : Imm12) (h : s.sp.val < 16) :
    execCall nnn s = .next ((s.push s.pc h).setPc (zext12 nnn)) := dif_pos h

theorem execCall_full {s : State} (nnn : Imm12) (h : ¬ s.sp.val < 16) :
    execCall nnn s = .next (s.setReport reportOverflow) := dif_neg h

theorem execRet_active {s : State} (h : 0 < s.sp.val) : execRet s = .next (s.drop.setPc (s.top h)) := dif_pos h

theorem execRet_empty {s : State} (h : ¬ 0 < s.sp.val) : execRet s = .next (s.setReport reportUnderflow) := dif_neg h

/-! ### The keypad -/

theorem State.keyDown_writeKey (s : State) (j k : Nibble) (b : Bool) :
    (s.writeKey j b).keyDown k = if k = j then b else s.keyDown k := by
  split
  · next h => subst h; simp [State.keyDown, State.writeKey]
  · next h =>
    have : j.toNat ≠ k.toNat := fun e => h (BitVec.eq_of_toNat_eq e.symm)
    simp [State.keyDown, State.writeKey, this]

/-- The selected key is the low 4 bits of `V[x]`. -/
theorem State.keySelect_eq (s : State) (x : Nibble) : s.keySelect x = (s.readV x).setWidth 4 := by
  simp [State.keySelect, BitVec.setWidth_eq_extractLsb']

/-- The scan of R153 finds the least pressed key. -/
theorem State.firstKey_eq_some (s : State) (k : Nat) :
    s.firstKey = some k ↔ s.keyDown (BitVec.ofNat 4 k) = true ∧ k < 16 ∧
      ∀ j, j < k → s.keyDown (BitVec.ofNat 4 j) = false := by
  simp [State.firstKey, List.find?_range_eq_some]

/-- The scan finds nothing exactly when no key is pressed. -/
theorem State.firstKey_eq_none (s : State) : s.firstKey = none ↔ ∀ k : Nibble, s.keyDown k = false := by
  simp only [State.firstKey, List.find?_eq_none, List.mem_range, Bool.not_eq_true]
  exact ⟨fun h k => by simpa using h k.toNat k.isLt, fun h k _ => h _⟩

/-! ### The tick (60_exceptions.md R168) -/

/-- A tick takes one away, and nothing from 0. -/
theorem toNat_countDown (t : Byte) : (countDown t).toNat = t.toNat - 1 := by
  unfold countDown
  split
  · next h => subst h; rfl
  · next h =>
    have : t.toNat ≠ 0 := fun e => h (BitVec.eq_of_toNat_eq e)
    have := t.isLt
    rw [BitVec.toNat_sub, show (1 : BitVec 8).toNat = 1 from rfl]
    omega

/-! ### Reset for any FONT (10_state.md R23; 20_memory.md R41) -/

@[simp] theorem State.resetWith_v (f : Font) : (State.resetWith f).v = State.reset.v := rfl
@[simp] theorem State.resetWith_i (f : Font) : (State.resetWith f).i = 0 := rfl
@[simp] theorem State.resetWith_pc (f : Font) : (State.resetWith f).pc = 0x200 := rfl
@[simp] theorem State.resetWith_stack (f : Font) : (State.resetWith f).stack = State.reset.stack := rfl
@[simp] theorem State.resetWith_sp (f : Font) : (State.resetWith f).sp = 0 := rfl
@[simp] theorem State.resetWith_dt (f : Font) : (State.resetWith f).dt = 0 := rfl
@[simp] theorem State.resetWith_st (f : Font) : (State.resetWith f).st = 0 := rfl
@[simp] theorem State.resetWith_key (f : Font) : (State.resetWith f).key = State.reset.key := rfl
@[simp] theorem State.resetWith_fb (f : Font) : (State.resetWith f).fb = State.reset.fb := rfl
@[simp] theorem State.resetWith_rng (f : Font) : (State.resetWith f).rng = 0 := rfl
@[simp] theorem State.resetWith_opcode (f : Font) : (State.resetWith f).opcode = 0 := rfl
@[simp] theorem State.resetWith_report (f : Font) : (State.resetWith f).report = 0 := rfl

@[simp] theorem length_fontBytes (f : Font) : (fontBytes f).length = 80 := by simp [fontBytes, glyphZero]

/-- With the default of FONT the state after reset is `State.reset`. -/
theorem State.resetWith_default : State.resetWith defaultFont = State.reset := by
  decide +kernel

/-- What memory holds after reset: the font's bytes at 0x050 to 0x09F. -/
theorem State.read_resetWith_font (f : Font) (k : Nat) (hk : k < 80) :
    (State.resetWith f).mem.read (0x50 + k) = (fontBytes f)[k]'(by simpa using hk) :=
  Memory.read_writeList_inside [] 0x50 (fontBytes f) (by simp) k (by simpa using hk)

/-- What memory holds after reset outside the font: what `State.reset` has there. -/
theorem State.read_resetWith_outside (f : Font) (a : Nat) (h : a % 4096 < 0x50 ∨ 0xA0 ≤ a % 4096) :
    (State.resetWith f).mem.read a = State.reset.mem.read a :=
  Memory.read_writeList_outside [] 0x50 (fontBytes f) a fun k hk => by
    rw [length_fontBytes] at hk; omega

/-- Memory after reset is in canonical form. -/
theorem State.wf_resetWith (f : Font) : (State.resetWith f).mem.wf := Memory.wf_writeList _ _ Memory.wf_nil

end Sys2Proof.Machine
end

