-- ==== Sys2Proof/Laws/PerInstr.lean ====
section
/-! SUPPORT. Per instruction: the word an instruction encodes to selects its own row of 30_encoding.md R64, and that row
builds it back; a well-formed no-op's word is undefined. -/

namespace Sys2Proof.Laws.OwnRow

/-- The word of `i` selects the row of the opcode map that builds `i`, or `i` is the no-op of an undefined word. -/
def Statement (i : Instr) : Prop :=
  i.wellFormed = true →
    (∃ r, r ∈ opcodeRows ∧ r.selects (encode i) = true ∧ r.build (encode i) = i) ∨
      (i = .nop (encode i) ∧ undefinedWord (encode i) = true)

/-- A row at place `k` of the map gives the statement. -/
theorem of_row {i : Instr} (k : Nat) (hk : k < opcodeRows.length) (hs : opcodeRows[k].selects (encode i) = true)
    (hb : opcodeRows[k].build (encode i) = i) : Statement i :=
  fun _ => .inl ⟨opcodeRows[k], List.getElem_mem hk, hs, hb⟩

theorem cls : Statement .cls :=
  of_row 0 (by decide) (by decide) rfl

theorem ret : Statement .ret :=
  of_row 1 (by decide) (by decide) rfl

theorem jp (nnn : Imm12) : Statement (.jp nnn) :=
  of_row 2 (by decide) (beq_iff_eq.mpr (wordA_and_op ..))
    (by simp [opcodeRows, rowsZA, rowsXK, rowsXY, rowsX, encode])

theorem call (nnn : Imm12) : Statement (.call nnn) :=
  of_row 3 (by decide) (beq_iff_eq.mpr (wordA_and_op ..))
    (by simp [opcodeRows, rowsZA, rowsXK, rowsXY, rowsX, encode])

theorem seImm (x : Nibble) (kk : Byte) : Statement (.seImm x kk) :=
  of_row 6 (by decide) (beq_iff_eq.mpr (wordXK_and_op ..))
    (by simp [opcodeRows, rowsZA, rowsXK, rowsXY, rowsX, encode])

theorem sneImm (x : Nibble) (kk : Byte) : Statement (.sneImm x kk) :=
  of_row 7 (by decide) (beq_iff_eq.mpr (wordXK_and_op ..))
    (by simp [opcodeRows, rowsZA, rowsXK, rowsXY, rowsX, encode])

theorem seReg (x : Nibble) (y : Nibble) : Statement (.seReg x y) :=
  of_row 12 (by decide) (beq_iff_eq.mpr (wordXYN_and_op_n ..))
    (by simp [opcodeRows, rowsZA, rowsXK, rowsXY, rowsX, encode])

theorem ldImm (x : Nibble) (kk : Byte) : Statement (.ldImm x kk) :=
  of_row 8 (by decide) (beq_iff_eq.mpr (wordXK_and_op ..))
    (by simp [opcodeRows, rowsZA, rowsXK, rowsXY, rowsX, encode])

theorem addImm (x : Nibble) (kk : Byte) : Statement (.addImm x kk) :=
  of_row 9 (by decide) (beq_iff_eq.mpr (wordXK_and_op ..))
    (by simp [opcodeRows, rowsZA, rowsXK, rowsXY, rowsX, encode])

theorem ldReg (x : Nibble) (y : Nibble) : Statement (.ldReg x y) :=
  of_row 14 (by decide) (beq_iff_eq.mpr (wordXYN_and_op_n ..))
    (by simp [opcodeRows, rowsZA, rowsXK, rowsXY, rowsX, encode])

theorem orReg (x : Nibble) (y : Nibble) : Statement (.orReg x y) :=
  of_row 15 (by decide) (beq_iff_eq.mpr (wordXYN_and_op_n ..))
    (by simp [opcodeRows, rowsZA, rowsXK, rowsXY, rowsX, encode])

theorem andReg (x : Nibble) (y : Nibble) : Statement (.andReg x y) :=
  of_row 16 (by decide) (beq_iff_eq.mpr (wordXYN_and_op_n ..))
    (by simp [opcodeRows, rowsZA, rowsXK, rowsXY, rowsX, encode])

theorem xorReg (x : Nibble) (y : Nibble) : Statement (.xorReg x y) :=
  of_row 17 (by decide) (beq_iff_eq.mpr (wordXYN_and_op_n ..))
    (by simp [opcodeRows, rowsZA, rowsXK, rowsXY, rowsX, encode])

theorem addReg (x : Nibble) (y : Nibble) : Statement (.addReg x y) :=
  of_row 18 (by decide) (beq_iff_eq.mpr (wordXYN_and_op_n ..))
    (by simp [opcodeRows, rowsZA, rowsXK, rowsXY, rowsX, encode])

theorem subReg (x : Nibble) (y : Nibble) : Statement (.subReg x y) :=
  of_row 19 (by decide) (beq_iff_eq.mpr (wordXYN_and_op_n ..))
    (by simp [opcodeRows, rowsZA, rowsXK, rowsXY, rowsX, encode])

theorem shr (x : Nibble) (y : Nibble) : Statement (.shr x y) :=
  of_row 20 (by decide) (beq_iff_eq.mpr (wordXYN_and_op_n ..))
    (by simp [opcodeRows, rowsZA, rowsXK, rowsXY, rowsX, encode])

theorem subnReg (x : Nibble) (y : Nibble) : Statement (.subnReg x y) :=
  of_row 21 (by decide) (beq_iff_eq.mpr (wordXYN_and_op_n ..))
    (by simp [opcodeRows, rowsZA, rowsXK, rowsXY, rowsX, encode])

theorem shl (x : Nibble) (y : Nibble) : Statement (.shl x y) :=
  of_row 22 (by decide) (beq_iff_eq.mpr (wordXYN_and_op_n ..))
    (by simp [opcodeRows, rowsZA, rowsXK, rowsXY, rowsX, encode])

theorem sneReg (x : Nibble) (y : Nibble) : Statement (.sneReg x y) :=
  of_row 13 (by decide) (beq_iff_eq.mpr (wordXYN_and_op_n ..))
    (by simp [opcodeRows, rowsZA, rowsXK, rowsXY, rowsX, encode])

theorem ldI (nnn : Imm12) : Statement (.ldI nnn) :=
  of_row 4 (by decide) (beq_iff_eq.mpr (wordA_and_op ..))
    (by simp [opcodeRows, rowsZA, rowsXK, rowsXY, rowsX, encode])

theorem jpV0 (nnn : Imm12) : Statement (.jpV0 nnn) :=
  of_row 5 (by decide) (beq_iff_eq.mpr (wordA_and_op ..))
    (by simp [opcodeRows, rowsZA, rowsXK, rowsXY, rowsX, encode])

theorem rnd (x : Nibble) (kk : Byte) : Statement (.rnd x kk) :=
  of_row 10 (by decide) (beq_iff_eq.mpr (wordXK_and_op ..))
    (by simp [opcodeRows, rowsZA, rowsXK, rowsXY, rowsX, encode])

theorem drw (x : Nibble) (y : Nibble) (n : Nibble) : Statement (.drw x y n) :=
  of_row 11 (by decide) (beq_iff_eq.mpr (wordXYN_and_op ..))
    (by simp [opcodeRows, rowsZA, rowsXK, rowsXY, rowsX, encode])

theorem skp (x : Nibble) : Statement (.skp x) :=
  of_row 23 (by decide) (beq_iff_eq.mpr (wordXK_and_op_kk ..))
    (by simp [opcodeRows, rowsZA, rowsXK, rowsXY, rowsX, encode])

theorem sknp (x : Nibble) : Statement (.sknp x) :=
  of_row 24 (by decide) (beq_iff_eq.mpr (wordXK_and_op_kk ..))
    (by simp [opcodeRows, rowsZA, rowsXK, rowsXY, rowsX, encode])

theorem ldVxDt (x : Nibble) : Statement (.ldVxDt x) :=
  of_row 25 (by decide) (beq_iff_eq.mpr (wordXK_and_op_kk ..))
    (by simp [opcodeRows, rowsZA, rowsXK, rowsXY, rowsX, encode])

theorem ldVxK (x : Nibble) : Statement (.ldVxK x) :=
  of_row 26 (by decide) (beq_iff_eq.mpr (wordXK_and_op_kk ..))
    (by simp [opcodeRows, rowsZA, rowsXK, rowsXY, rowsX, encode])

theorem ldDtVx (x : Nibble) : Statement (.ldDtVx x) :=
  of_row 27 (by decide) (beq_iff_eq.mpr (wordXK_and_op_kk ..))
    (by simp [opcodeRows, rowsZA, rowsXK, rowsXY, rowsX, encode])

theorem ldStVx (x : Nibble) : Statement (.ldStVx x) :=
  of_row 28 (by decide) (beq_iff_eq.mpr (wordXK_and_op_kk ..))
    (by simp [opcodeRows, rowsZA, rowsXK, rowsXY, rowsX, encode])

theorem addI (x : Nibble) : Statement (.addI x) :=
  of_row 29 (by decide) (beq_iff_eq.mpr (wordXK_and_op_kk ..))
    (by simp [opcodeRows, rowsZA, rowsXK, rowsXY, rowsX, encode])

theorem ldF (x : Nibble) : Statement (.ldF x) :=
  of_row 30 (by decide) (beq_iff_eq.mpr (wordXK_and_op_kk ..))
    (by simp [opcodeRows, rowsZA, rowsXK, rowsXY, rowsX, encode])

theorem ldB (x : Nibble) : Statement (.ldB x) :=
  of_row 31 (by decide) (beq_iff_eq.mpr (wordXK_and_op_kk ..))
    (by simp [opcodeRows, rowsZA, rowsXK, rowsXY, rowsX, encode])

theorem ldMemVx (x : Nibble) : Statement (.ldMemVx x) :=
  of_row 32 (by decide) (beq_iff_eq.mpr (wordXK_and_op_kk ..))
    (by simp [opcodeRows, rowsZA, rowsXK, rowsXY, rowsX, encode])

theorem ldVxMem (x : Nibble) : Statement (.ldVxMem x) :=
  of_row 33 (by decide) (beq_iff_eq.mpr (wordXK_and_op_kk ..))
    (by simp [opcodeRows, rowsZA, rowsXK, rowsXY, rowsX, encode])

theorem nop (w : Word) : Statement (.nop w) := fun h => .inr ⟨rfl, h⟩

end Sys2Proof.Laws.OwnRow
end

