-- ==== Sys2Proof/Laws/Registers.lean ====
section
/-! SUPPORT. What the register operations do: a register write reads back and leaves the others alone, the flag and result
pair, and the block load and store of `V[0]` to `V[x]`. -/

namespace Sys2Proof.Machine

@[simp] theorem State.readV_writeV_same (s : State) (x : Nibble) (b : Byte) : (s.writeV x b).readV x = b := by
  simp [State.readV, State.writeV]

theorem State.readV_writeV_ne (s : State) {x r : Nibble} (b : Byte) (h : r ≠ x) :
    (s.writeV x b).readV r = s.readV r := by
  have : x.toNat ≠ r.toNat := fun e => h (BitVec.eq_of_toNat_eq e.symm)
  simp [State.readV, State.writeV, this]

theorem State.readV_writeV (s : State) (x r : Nibble) (b : Byte) :
    (s.writeV x b).readV r = if r = x then b else s.readV r := by
  split
  · next h => subst h; exact State.readV_writeV_same ..
  · next h => exact State.readV_writeV_ne s b h

/-- A register file is what its registers read as. -/
theorem State.getElem_v (s : State) (k : Nat) (hk : k < 16) : s.v[k] = s.readV (BitVec.ofNat 4 k) := by
  simp [State.readV, Nat.mod_eq_of_lt hk]

theorem State.v_eq_of_readV {s t : State} (h : ∀ r, t.readV r = s.readV r) : t.v = s.v :=
  Vector.ext fun k hk => by rw [State.getElem_v, State.getElem_v, h]

/-! ### Flag and result (42_alu.md R124) -/

/-- The result is what the destination holds, VF included. -/
theorem State.readV_writeFlagThenResult_dest (s : State) (x : Nibble) (f r : Byte) :
    (s.writeFlagThenResult x f r).readV x = r := State.readV_writeV_same ..

/-- VF holds the flag where it is not the destination. -/
theorem State.readV_writeFlagThenResult_vF (s : State) {x : Nibble} (f r : Byte) (h : x ≠ vF) :
    (s.writeFlagThenResult x f r).readV vF = f := by
  rw [State.writeFlagThenResult, State.readV_writeV_ne _ _ h.symm, State.readV_writeV_same]

/-- Every other register is kept. -/
theorem State.readV_writeFlagThenResult_other (s : State) {x k : Nibble} (f r : Byte) (hx : k ≠ x) (hF : k ≠ vF) :
    (s.writeFlagThenResult x f r).readV k = s.readV k := by
  rw [State.writeFlagThenResult, State.readV_writeV_ne _ _ hx, State.readV_writeV_ne _ _ hF]

/-- Only the register file is written. -/
theorem State.writeFlagThenResult_eq (s : State) (x : Nibble) (f r : Byte) :
    s.writeFlagThenResult x f r = s.setV (s.writeFlagThenResult x f r).v := rfl

/-! ### The block store and load (43_index_memory.md R134, R135) -/

@[simp] theorem State.length_regsUpTo (s : State) (x : Nibble) : (s.regsUpTo x).length = x.toNat + 1 := by
  simp [State.regsUpTo]

@[simp] theorem State.getElem_regsUpTo (s : State) (x : Nibble) (k : Nat) (h : k < (s.regsUpTo x).length) :
    (s.regsUpTo x)[k] = s.readV (BitVec.ofNat 4 k) := by
  simp [State.regsUpTo]

/-- The loop of R135 over its first `n` offsets: those registers are loaded, the others kept, nothing else written. -/
theorem State.loadLoop_spec (s : State) (n : Nat) (hn : n ≤ 16) :
    ((List.range n).foldl (fun t k => t.writeV (BitVec.ofNat 4 k) (s.mem.read (s.addrI k))) s) =
        s.setV ((List.range n).foldl (fun t k => t.writeV (BitVec.ofNat 4 k) (s.mem.read (s.addrI k))) s).v ∧
      ∀ r : Nibble, ((List.range n).foldl (fun t k => t.writeV (BitVec.ofNat 4 k) (s.mem.read (s.addrI k))) s).readV r =
        if r.toNat < n then s.mem.read (s.addrI r.toNat) else s.readV r := by
  induction n with
  | zero => exact ⟨rfl, fun r => by simp⟩
  | succ n ih =>
    obtain ⟨h1, h2⟩ := ih (by omega)
    rw [List.range_succ, List.foldl_append]
    refine ⟨by rw [List.foldl_cons, List.foldl_nil, h1]; rfl, fun r => ?_⟩
    rw [List.foldl_cons, List.foldl_nil, State.readV_writeV, h2]
    have hr : r = BitVec.ofNat 4 n ↔ r.toNat = n := by
      rw [← BitVec.toNat_inj, BitVec.toNat_ofNat, Nat.mod_eq_of_lt (show n < 2 ^ 4 by omega)]
    by_cases h : r.toNat = n
    · simp [hr, h]
    · simp [hr, h, show r.toNat < n + 1 ↔ r.toNat < n by omega]

/-- LD Vx, [I] writes the register file alone. -/
theorem State.loadRegs_eq (s : State) (x : Nibble) : s.loadRegs x = s.setV (s.loadRegs x).v :=
  (State.loadLoop_spec s _ (by have := x.isLt; omega)).1

@[simp] theorem State.loadRegs_i (s : State) (x : Nibble) : (s.loadRegs x).i = s.i := by
  rw [State.loadRegs_eq]; rfl
@[simp] theorem State.loadRegs_pc (s : State) (x : Nibble) : (s.loadRegs x).pc = s.pc := by
  rw [State.loadRegs_eq]; rfl
@[simp] theorem State.loadRegs_stack (s : State) (x : Nibble) : (s.loadRegs x).stack = s.stack := by
  rw [State.loadRegs_eq]; rfl
@[simp] theorem State.loadRegs_sp (s : State) (x : Nibble) : (s.loadRegs x).sp = s.sp := by
  rw [State.loadRegs_eq]; rfl
@[simp] theorem State.loadRegs_dt (s : State) (x : Nibble) : (s.loadRegs x).dt = s.dt := by
  rw [State.loadRegs_eq]; rfl
@[simp] theorem State.loadRegs_st (s : State) (x : Nibble) : (s.loadRegs x).st = s.st := by
  rw [State.loadRegs_eq]; rfl
@[simp] theorem State.loadRegs_key (s : State) (x : Nibble) : (s.loadRegs x).key = s.key := by
  rw [State.loadRegs_eq]; rfl
@[simp] theorem State.loadRegs_fb (s : State) (x : Nibble) : (s.loadRegs x).fb = s.fb := by
  rw [State.loadRegs_eq]; rfl
@[simp] theorem State.loadRegs_mem (s : State) (x : Nibble) : (s.loadRegs x).mem = s.mem := by
  rw [State.loadRegs_eq]; rfl
@[simp] theorem State.loadRegs_rng (s : State) (x : Nibble) : (s.loadRegs x).rng = s.rng := by
  rw [State.loadRegs_eq]; rfl
@[simp] theorem State.loadRegs_opcode (s : State) (x : Nibble) : (s.loadRegs x).opcode = s.opcode := by
  rw [State.loadRegs_eq]; rfl
@[simp] theorem State.loadRegs_report (s : State) (x : Nibble) : (s.loadRegs x).report = s.report := by
  rw [State.loadRegs_eq]; rfl

/-- What each register holds after LD Vx, [I]. -/
theorem State.readV_loadRegs (s : State) (x r : Nibble) :
    (s.loadRegs x).readV r = if r.toNat ≤ x.toNat then s.mem.read (s.i.toNat + r.toNat) else s.readV r := by
  have := (State.loadLoop_spec s (x.toNat + 1) (by have := x.isLt; omega)).2 r
  simpa [State.loadRegs, State.addrI, Nat.lt_succ_iff] using this

end Sys2Proof.Machine
end

