-- ==== Sys2Proof/Tests/Slice0.lean ====
section
/-! SUPPORT. Tests of the model, with expected results from 95_test_vectors.md (cited by their ids) or written out from
the rule named, and the witnesses that the hypotheses of the obligations can be met. -/

namespace Sys2Proof.Tests

open Sys2Proof.Machine

/-! ### Helpers -/

/-- What a reader sees in the state a result goes on with. -/
def seen {α : Type} (r : Result) (look : State → α) : Option α :=
  match r with
  | .next t => some (look t)
  | .fault _ => none
  | .refused _ => none

/-- One cycle on word `w` at `pc`, from reset changed by `before` (the notation of 95_test_vectors.md). -/
def cycle {α : Type} (w : Nat) (before : State → State) (look : State → α) : Option α :=
  seen (step ((before State.reset).withFetchWord 16 w)) look

/-- Bytes put at an address. -/
def put (a : Nat) (bs : List Byte) (s : State) : State := s.setMem (s.mem.writeList a bs)

/-- Pixels (as `row * 64 + col`) lit, the others dark. -/
def light (ps : List Nat) (s : State) : State :=
  s.setFb (ps.foldl (fun f p => f.flip (p / 64) (p % 64)) Framebuffer.dark)

/-- The stack filled with `0x0100 + k` and `n` active entries (V-C8). -/
def stacked (n : Fin 17) (s : State) : State :=
  (s.setStack (Vector.ofFn fun k => BitVec.ofNat 16 (0x100 + k.val))).setSp n

/-! ### Well-formedness: a no-op that carries a defined word is refused, in every family -/

theorem test_wf_refuses_defined_words :
    ([0x00E0, 0x00EE, 0x1ABC, 0x2ABC, 0x3A42, 0x4A42, 0x5AB0, 0x6A3C, 0x7A01, 0x8AB0, 0x8AB7, 0x8ABE, 0x9AB0, 0xA300,
      0xB300, 0xCA0F, 0xDAB5, 0xEA9E, 0xEAA1, 0xFA07, 0xFA65].all fun w : Word => !(Instr.nop w).wellFormed) = true := by
  decide

/-- The words of V-F1 to V-F9. -/
theorem test_wf_accepts_undefined_words :
    ([0x0000, 0x5AB1, 0x00E1, 0x0123, 0x8AB8, 0x9AB1, 0xE19F, 0xF1FF, 0xF000].all fun w : Word =>
      (Instr.nop w).wellFormed) = true := by
  decide

theorem test_wf_accepts_an_instruction : (Instr.drw 0xA 0xB 5).wellFormed = true := by decide

/-! ### Decoding: every constructor, its word written out bit by bit from R62 and R64 -/

theorem test_decode_family_0 :
    decodeWord 0b0000000011100000 = .cls ∧ decodeWord 0b0000000011101110 = .ret := by decide

theorem test_decode_format_a :
    decodeWord 0b0001101010111100 = .jp 0xABC ∧ decodeWord 0b0010101010111100 = .call 0xABC ∧
    decodeWord 0b1010001100000001 = .ldI 0x301 ∧ decodeWord 0b1011001100000001 = .jpV0 0x301 := by decide

theorem test_decode_format_xk :
    decodeWord 0b0011101001000010 = .seImm 0xA 0x42 ∧ decodeWord 0b0100101001000010 = .sneImm 0xA 0x42 ∧
    decodeWord 0b0110101000111100 = .ldImm 0xA 0x3C ∧ decodeWord 0b0111101000000001 = .addImm 0xA 0x01 ∧
    decodeWord 0b1100101000001111 = .rnd 0xA 0x0F := by decide

theorem test_decode_format_xyn : decodeWord 0b1101101010110101 = .drw 0xA 0xB 5 := by decide

theorem test_decode_format_xy_compare :
    decodeWord 0b0101101010110000 = .seReg 0xA 0xB ∧ decodeWord 0b1001101010110000 = .sneReg 0xA 0xB := by decide

theorem test_decode_family_8 :
    decodeWord 0b1000101010110000 = .ldReg 0xA 0xB ∧ decodeWord 0b1000101010110001 = .orReg 0xA 0xB ∧
    decodeWord 0b1000101010110010 = .andReg 0xA 0xB ∧ decodeWord 0b1000101010110011 = .xorReg 0xA 0xB ∧
    decodeWord 0b1000101010110100 = .addReg 0xA 0xB ∧ decodeWord 0b1000101010110101 = .subReg 0xA 0xB ∧
    decodeWord 0b1000101010110110 = .shr 0xA 0xB ∧ decodeWord 0b1000101010110111 = .subnReg 0xA 0xB ∧
    decodeWord 0b1000101010111110 = .shl 0xA 0xB := by decide

theorem test_decode_family_e :
    decodeWord 0b1110101010011110 = .skp 0xA ∧ decodeWord 0b1110101010100001 = .sknp 0xA := by decide

theorem test_decode_family_f :
    decodeWord 0b1111101000000111 = .ldVxDt 0xA ∧ decodeWord 0b1111101000001010 = .ldVxK 0xA ∧
    decodeWord 0b1111101000010101 = .ldDtVx 0xA ∧ decodeWord 0b1111101000011000 = .ldStVx 0xA ∧
    decodeWord 0b1111101000011110 = .addI 0xA ∧ decodeWord 0b1111101000101001 = .ldF 0xA ∧
    decodeWord 0b1111101000110011 = .ldB 0xA ∧ decodeWord 0b1111101001010101 = .ldMemVx 0xA ∧
    decodeWord 0b1111101001100101 = .ldVxMem 0xA := by decide

/-- V-F2, V-F4, V-F5, V-F7 and V-F8: strict decoding (D4). -/
theorem test_decode_undefined :
    decodeWord 0x5AB1 = .nop 0x5AB1 ∧ decodeWord 0x0123 = .nop 0x0123 ∧ decodeWord 0x8AB8 = .nop 0x8AB8 ∧
    decodeWord 0xE19F = .nop 0xE19F ∧ decodeWord 0xF1FF = .nop 0xF1FF := by decide

/-- R43: the byte at the lower address is the high byte. -/
theorem test_decode_bytes : decodeBytes [0x12, 0x34, 0x56] = .ok (.jp 0x234, [0x56]) := by decide

/-- R60: no instruction is shorter than two bytes. -/
theorem test_decode_bytes_truncated :
    decodeBytes [0x12] = .error .truncated ∧ decodeBytes [] = .error .truncated := by decide

theorem test_decode_table_word :
    decodeTableWord 16 0x1ABC = some (.jp 0xABC) ∧ decodeTableWord 16 0x00EE = some .ret ∧
    decodeTableWord 8 0xEE = some .ret := by decide

theorem test_encode_words :
    encode (.shr 0xA 0xB) = 0x8AB6 ∧ encode (.ldMemVx 0xF) = 0xFF55 ∧ encode (.drw 0 1 5) = 0xD015 := by decide

/-! ### The fetch (V-F) -/

/-- V-F1: only `pc` moves. -/
theorem test_nop_only_advances :
    seen (step (State.reset.setReport 2)) id = some (State.reset.setPc 0x0202) := by decide

/-- V-F10: an odd `pc`. -/
theorem test_fetch_odd :
    cycle 0x6A3C (fun s => s.setPc 0x0201) (fun t => (t.readV 0xA, t.pc, t.opcode)) = some (0x3C, 0x0203, 0x6A3C) := by
  decide

/-- V-F12: the second byte comes from address 0, and `pc` wraps at 16 bits. -/
theorem test_fetch_wraps :
    cycle 0x6077 (fun s => s.setPc 0xFFFF) (fun t => (t.readV 0, t.pc, t.mem.read 0xFFF, t.mem.read 0)) =
      some (0x77, 0x0001, 0x60, 0x77) := by decide

/-- V-F15: a skip past the top of `pc`. -/
theorem test_skip_wraps : cycle 0x3000 (fun s => s.setPc 0xFFFE) (fun t => t.pc) = some 0x0002 := by decide

/-! ### Control transfer (V-C) -/

/-- V-C1. -/
theorem test_jp : cycle 0x1ABC id (fun t => (t.pc, t.sp)) = some (0x0ABC, 0) := by decide

/-- V-C4. -/
theorem test_call :
    cycle 0x2300 (fun s => (s.setPc 0x0FFE).setSp 15) (fun t => (t.stack[15], t.sp, t.pc, t.report)) =
      some (0x1000, 16, 0x0300, 0) := by decide

/-- V-C5. -/
theorem test_call_full :
    cycle 0x2300 (fun s => stacked 16 (s.setPc 0x0400)) (fun t => (t.stack[15], t.sp, t.pc, t.report)) =
      some (0x010F, 16, 0x0402, 1) := by decide

/-- V-C8. -/
theorem test_ret :
    cycle 0x00EE (fun s => stacked 16 (s.setPc 0x0300)) (fun t => (t.sp, t.pc, t.stack[15], t.report)) =
      some (15, 0x010F, 0x010F, 0) := by decide

/-- V-C7. -/
theorem test_ret_empty :
    cycle 0x00EE (fun s => s.setPc 0x0300) (fun t => (t.sp, t.pc, t.report)) = some (0, 0x0302, 2) := by decide

/-- V-C10, V-C11. -/
theorem test_se_imm :
    cycle 0x3A42 (fun s => s.writeV 0xA 0x42) (fun t => t.pc) = some 0x0204 ∧
    cycle 0x3A42 (fun s => s.writeV 0xA 0x43) (fun t => t.pc) = some 0x0202 := by decide

/-- V-C12, V-C13. -/
theorem test_sne_imm :
    cycle 0x4A42 (fun s => s.writeV 0xA 0x42) (fun t => t.pc) = some 0x0202 ∧
    cycle 0x4A42 (fun s => s.writeV 0xA 0x43) (fun t => t.pc) = some 0x0204 := by decide

/-- V-C15, V-C16. -/
theorem test_se_reg :
    cycle 0x5AB0 (fun s => (s.writeV 0xA 9).writeV 0xB 9) (fun t => t.pc) = some 0x0204 ∧
    cycle 0x5AB0 (fun s => (s.writeV 0xA 9).writeV 0xB 8) (fun t => t.pc) = some 0x0202 := by decide

/-- V-C18, V-C19. -/
theorem test_sne_reg :
    cycle 0x9AB0 (fun s => (s.writeV 0xA 9).writeV 0xB 9) (fun t => t.pc) = some 0x0202 ∧
    cycle 0x9AB0 (fun s => (s.writeV 0xA 9).writeV 0xB 8) (fun t => t.pc) = some 0x0204 := by decide

/-- V-C22, V-C23. -/
theorem test_jp_v0 :
    cycle 0xBFFF (fun s => s.writeV 0 0xFF) (fun t => t.pc) = some 0x10FE ∧
    cycle 0xB300 (fun s => s.writeV 3 0x55) (fun t => t.pc) = some 0x0300 := by decide

/-! ### Registers (V-A, V-AF, V-R) -/

/-- V-A2. -/
theorem test_ld_imm : cycle 0x6F99 id (fun t => t.readV 0xF) = some 0x99 := by decide

/-- V-A3. -/
theorem test_add_imm :
    cycle 0x7A01 (fun s => (s.writeV 0xA 0xFF).writeV 0xF 5) (fun t => (t.readV 0xA, t.readV 0xF)) = some (0, 5) := by
  decide

/-- V-A8. -/
theorem test_ld_reg : cycle 0x8EF0 (fun s => s.writeV 0xF 1) (fun t => t.readV 0xE) = some 1 := by decide

/-- V-A9. -/
theorem test_or :
    cycle 0x8AB1 (fun s => ((s.writeV 0xA 0xF0).writeV 0xB 0x0F).writeV 0xF 1) (fun t => (t.readV 0xA, t.readV 0xF)) =
      some (0xFF, 1) := by decide

/-- V-A10. -/
theorem test_and :
    cycle 0x8AB2 (fun s => ((s.writeV 0xA 0xF0).writeV 0xB 0x3C).writeV 0xF 1) (fun t => (t.readV 0xA, t.readV 0xF)) =
      some (0x30, 1) := by decide

/-- V-A11. -/
theorem test_xor :
    cycle 0x8AB3 (fun s => ((s.writeV 0xA 0xF0).writeV 0xB 0x3C).writeV 0xF 1) (fun t => (t.readV 0xA, t.readV 0xF)) =
      some (0xCC, 1) := by decide

/-- V-A13 (source S1), V-A14. -/
theorem test_add_reg :
    cycle 0x8AB4 (fun s => (s.writeV 0xA 0xC8).writeV 0xB 0x64) (fun t => (t.readV 0xA, t.readV 0xF)) =
      some (0x2C, 1) ∧
    cycle 0x8AB4 (fun s => (s.writeV 0xA 0xFF).writeV 0xF 1) (fun t => (t.readV 0xA, t.readV 0xF)) =
      some (0xFF, 0) := by decide

/-- V-AF1, V-AF6. -/
theorem test_add_reg_vf :
    cycle 0x8FB4 (fun s => (s.writeV 0xF 0xF0).writeV 0xB 0x20) (fun t => t.readV 0xF) = some 0x10 ∧
    cycle 0x8AF4 (fun s => (s.writeV 0xA 0xFF).writeV 0xF 1) (fun t => (t.readV 0xA, t.readV 0xF)) = some (0, 1) := by
  decide

/-- V-A19 (source S2), V-A21. -/
theorem test_sub_reg :
    cycle 0x8AB5 (fun s => ((s.writeV 0xA 5).writeV 0xB 0xA).writeV 0xF 1) (fun t => (t.readV 0xA, t.readV 0xF)) =
      some (0xFB, 0) ∧
    cycle 0x8AB5 (fun s => ((s.writeV 0xA 7).writeV 0xB 7).writeV 0xF 1) (fun t => (t.readV 0xA, t.readV 0xF)) =
      some (0, 0) := by decide

/-- V-AF2, V-AF7. -/
theorem test_sub_reg_vf :
    cycle 0x8FB5 (fun s => (s.writeV 0xF 0x10).writeV 0xB 0x20) (fun t => t.readV 0xF) = some 0xF0 ∧
    cycle 0x8AF5 (fun s => (s.writeV 0xA 5).writeV 0xF 1) (fun t => (t.readV 0xA, t.readV 0xF)) = some (4, 1) := by
  decide

/-- V-A24, V-A25. -/
theorem test_subn_reg :
    cycle 0x8AB7 (fun s => (s.writeV 0xA 5).writeV 0xB 0xA) (fun t => (t.readV 0xA, t.readV 0xF)) = some (5, 1) ∧
    cycle 0x8AB7 (fun s => ((s.writeV 0xA 0xA).writeV 0xB 5).writeV 0xF 1) (fun t => (t.readV 0xA, t.readV 0xF)) =
      some (0xFB, 0) := by decide

/-- V-AF3, V-AF9. -/
theorem test_subn_reg_vf :
    cycle 0x8FB7 (fun s => (s.writeV 0xF 0x10).writeV 0xB 0x20) (fun t => t.readV 0xF) = some 0x10 ∧
    cycle 0x8AF7 (fun s => s.writeV 0xF 1) (fun t => (t.readV 0xA, t.readV 0xF)) = some (1, 1) := by decide

/-- V-A27 (source S3), V-A28. -/
theorem test_shr :
    cycle 0x8AB6 (fun s => (s.writeV 0xA 3).writeV 0xB 0xFF) (fun t => (t.readV 0xA, t.readV 0xF, t.readV 0xB)) =
      some (1, 1, 0xFF) ∧
    cycle 0x8AB6 (fun s => ((s.writeV 0xA 0x80).writeV 0xB 0xFF).writeV 0xF 1) (fun t => (t.readV 0xA, t.readV 0xF)) =
      some (0x40, 0) := by decide

/-- V-A31, V-AF5. -/
theorem test_shl :
    cycle 0x8ABE (fun s => (s.writeV 0xA 0x81).writeV 0xB 0x55) (fun t => (t.readV 0xA, t.readV 0xF, t.readV 0xB)) =
      some (2, 1, 0x55) ∧
    cycle 0x8F0E (fun s => s.writeV 0xF 0x81) (fun t => t.readV 0xF) = some 2 := by decide

/-- V-R2: whatever the draw, AND 00 is 00, and one draw is consumed. -/
theorem test_rnd :
    cycle 0xCA00 (fun s => s.writeV 0xA 0x33) (fun t => t.rng) = some 1 ∧
    cycle 0xCA0F id (fun t => t.readV 0xA) = some (Config.randomByte 0 &&& 0x0F) := ⟨rfl, rfl⟩

/-! ### The index register and memory (V-M) -/

/-- V-M1. -/
theorem test_ld_i : cycle 0xA300 (fun s => s.setI 0xFFFF) (fun t => t.i) = some 0x0300 := by decide

/-- V-M4, V-M5. -/
theorem test_add_i :
    cycle 0xFA1E (fun s => (s.setI 0x0FFF).writeV 0xA 1) (fun t => t.i) = some 0x1000 ∧
    cycle 0xFA1E (fun s => ((s.setI 0xFFFF).writeV 0xA 2).writeV 0xF 1) (fun t => (t.i, t.readV 0xF)) =
      some (1, 1) := by decide

/-- V-M7, V-M10. -/
theorem test_ld_f :
    cycle 0xFA29 (fun s => s.writeV 0xA 0xA) (fun t => t.i) = some 0x0082 ∧
    cycle 0xFA29 (fun s => s.writeV 0xA 0xFF) (fun t => t.i) = some 0x054B := by decide

/-- V-M11 (source S6), V-M17. -/
theorem test_ld_b :
    cycle 0xFA33 (fun s => (s.writeV 0xA 0xEA).setI 0x300)
      (fun t => (t.mem.read 0x300, t.mem.read 0x301, t.mem.read 0x302)) = some (2, 3, 4) ∧
    cycle 0xFA33 (fun s => (s.writeV 0xA 0x7B).setI 0x1FFF)
      (fun t => (t.mem.read 0xFFF, t.mem.read 0, t.mem.read 1, t.i)) = some (1, 2, 3, 0x1FFF) := by decide

/-- V-M20. -/
theorem test_ld_mem_vx :
    cycle 0xF255 (fun s => ((((s.writeV 0 0x11).writeV 1 0x22).writeV 2 0x33).writeV 3 0x44).setI 0x300)
      (fun t => (t.mem.read 0x300, t.mem.read 0x301, t.mem.read 0x302, t.mem.read 0x303, t.i)) =
      some (0x11, 0x22, 0x33, 0, 0x300) := by decide

/-- The ends of V-M21: the block crosses the top of memory. -/
theorem test_ld_mem_vx_wraps :
    cycle 0xFF55 (fun s => (((s.writeV 7 0xA7).writeV 8 0xA8).writeV 0xF 0xAF).setI 0x0FF8)
      (fun t => (t.mem.read 0xFFF, t.mem.read 0x000, t.mem.read 0x007)) = some (0xA7, 0xA8, 0xAF) := by decide

/-- V-M22, V-M24. -/
theorem test_ld_vx_mem :
    cycle 0xF165 (fun s => ((put 0x300 [0x11, 0x22, 0x33] s).writeV 2 0x99).setI 0x300)
      (fun t => (t.readV 0, t.readV 1, t.readV 2, t.i)) = some (0x11, 0x22, 0x99, 0x300) ∧
    cycle 0xF165 (fun s => s.setI 0x50) (fun t => (t.readV 0, t.readV 1)) = some (0xF0, 0x90) := by decide

/-! ### The display (V-D) -/

/-- V-D1. -/
theorem test_cls :
    cycle 0x00E0 (fun s => (light [0, 5, 2047] s).writeV 0xF 1)
      (fun t => (t.pixel 0, t.pixel 5, t.pixel 2047, t.readV 0xF)) = some (false, false, false, 1) := by decide

/-- V-D9: the flag is the OR over the pixels, not the last one's. -/
theorem test_drw_collision :
    cycle 0xDAB2 (fun s => (light [0] (put 0x300 [0x80, 0x40] s)).setI 0x300)
      (fun t => (t.pixel 0, t.pixel 64, t.pixel 65, t.readV 0xF)) = some (false, false, true, 1) := by decide

/-- V-D15: the start wraps to column 63, row 31; columns and rows past the edges are clipped. -/
theorem test_drw_edges :
    cycle 0xDABF (fun s => (((put 0x300 (List.replicate 15 0x80) s).setI 0x300).writeV 0xA 0xFF).writeV 0xB 0xFF)
      (fun t => (t.pixel 2047, t.pixel 1984, t.pixel 63, t.pixel 0, t.readV 0xF)) =
      some (true, false, false, false, 0) := by decide

/-! ### Keypad and timers (V-K, V-T) -/

/-- V-K1, V-K5. -/
theorem test_skp :
    cycle 0xEA9E (fun s => (s.writeV 0xA 5).writeKey 4 true) (fun t => t.pc) = some 0x0202 ∧
    cycle 0xEA9E (fun s => (s.writeV 0xA 0x1A).writeKey 0xA true) (fun t => t.pc) = some 0x0204 := by decide

/-- V-K4, V-K6. -/
theorem test_sknp :
    cycle 0xEAA1 (fun s => s.writeV 0xA 5) (fun t => t.pc) = some 0x0204 ∧
    cycle 0xEAA1 (fun s => (s.writeV 0xA 0xF5).writeKey 5 true) (fun t => t.pc) = some 0x0202 := by decide

/-- V-K9. -/
theorem test_ld_vx_k :
    cycle 0xFA0A (fun s => (((s.setPc 0x0204).writeKey 3 true).writeKey 9 true).writeV 0xA 0x55)
      (fun t => (t.readV 0xA, t.pc)) = some (3, 0x0206) := by decide

/-- V-K12. -/
theorem test_ld_vx_k_stalls :
    cycle 0xFA0A (fun s => (s.setPc 0xFFFE).writeV 0xA 0x55) (fun t => (t.readV 0xA, t.pc, t.report)) =
      some (0x55, 0xFFFE, 0) := by decide

/-- V-T1. -/
theorem test_ld_vx_dt :
    cycle 0xFA07 (fun s => (s.setDt 0x39).writeV 0xA 1) (fun t => (t.readV 0xA, t.dt)) = some (0x39, 0x39) := by decide

/-- V-T2. -/
theorem test_ld_dt_vx : cycle 0xFA15 (fun s => s.writeV 0xA 0x3C) (fun t => (t.dt, t.st)) = some (0x3C, 0) := by decide

/-- V-T3. -/
theorem test_ld_st_vx :
    cycle 0xFA18 (fun s => s.writeV 0xA 2) (fun t => (t.st, t.dt, t.sound)) = some (2, 0, true) := by decide

/-! ### The host's moves (V-T6 to V-T11, V-K13, V-K14, V-I, S8) -/

/-- V-T6, V-T7, V-T10. -/
theorem test_tick :
    State.reset.tick = State.reset ∧
    ((State.reset.setDt 1).setSt 1).tick = State.reset ∧
    ((State.reset.setDt 0xFF).setSt 0xFF).tick = (State.reset.setDt 0xFE).setSt 0xFE := by decide

/-- V-K13, V-K14. -/
theorem test_key_moves :
    seen (runMoves defaultFont [.keySet 7, .keySet 2, .keyClear 7] State.reset) (fun t => (t.keyDown 7, t.keyDown 2, t.pc)) =
      some (false, true, 0x0200) := by decide

/-- V-I2: the image goes to 0x200, and the first cycle executes `1200`. -/
theorem test_load_and_run :
    seen (runMoves defaultFont [.reset, .load [0x12, 0x00], .cycle] (State.reset.setPc 0x0300))
      (fun t => (t.mem.read 0x200, t.mem.read 0x201, t.pc, t.opcode)) = some (0x12, 0x00, 0x0200, 0x1200) := by
  decide +kernel

/-- S8, V-I5: 3585 bytes are refused. -/
theorem test_load_too_large (image : List Byte) (h : image.length = 3585) :
    move defaultFont (.load image) State.reset = .refused .imageTooLarge :=
  if_neg (by simp [h, Config.romMax])

/-- V-I1: reset of a core in use; glyphs 0, 7 (V-D6) and F of R41. -/
theorem test_reset :
    seen (move defaultFont .reset (put 0x300 [7] ((State.reset.setDt 0x20).setSp 3)))
      (fun t => (t.mem.read 0x300, t.dt, t.sp, t.pc)) = some (0, 0, 0, 0x0200) ∧
    ([0x4F, 0x50, 0x54, 0x73, 0x74, 0x9B, 0x9F, 0xA0].map State.reset.mem.read) =
      [0x00, 0xF0, 0xF0, 0xF0, 0x10, 0xF0, 0x80, 0x00] := by decide +kernel

/-- R41, R5: another FONT; glyph 0 stays. -/
theorem test_reset_font :
    ([0x4F, 0x50, 0x54, 0x55, 0x9F, 0xA0].map (State.resetWith (Vector.replicate 75 7)).mem.read) =
      [0x00, 0xF0, 0xF0, 0x07, 0x07, 0x00] := by decide +kernel

/-! ### The table's first words run as the first instruction after reset -/

/-- Each row's `match` word (its operand fields zero) is what `step` runs in `State.reset.withFetchWord`. -/
theorem test_match_words_run_first :
    ([0x00E0, 0x00EE, 0x1000, 0x2000, 0x3000, 0x4000, 0x5000, 0x6000, 0x7000, 0x8000, 0x8001, 0x8002, 0x8003, 0x8004,
      0x8005, 0x8006, 0x8007, 0x800E, 0x9000, 0xA000, 0xB000, 0xC000, 0xD000, 0xE09E, 0xE0A1, 0xF007, 0xF00A, 0xF015,
      0xF018, 0xF01E, 0xF029, 0xF033, 0xF055, 0xF065, 0x0000].all fun w =>
      seen (step (State.reset.withFetchWord 16 w)) (fun t => t.opcode) == some (BitVec.ofNat 16 w) &&
        decodeTableWord 16 w == some (decodeWord (BitVec.ofNat 16 w))) = true := by decide

/-! ### Witnesses: each obligation's hypotheses are met together by concrete values

A theorem `witness_<obligation>` shows them, one conjunct for each clause of the obligation that has its own. -/

/-- Reset with word `w` at `pc`. -/
def at200 (w : Nat) : State := State.reset.withFetchWord 16 w

/-- A state in use: word `w` at an odd `pc`, registers, timers, a key, five stack entries, a font byte overwritten. -/
def busy (w : Nat) : State :=
  (stacked 5 (((((put 0x50 [0x12] State.reset).setPc 0x0FFF).writeV 0xA 0x31).setDt 7).writeKey 3 true)).withFetchWord 16 w

theorem witness_decode_of_encode :
    (Instr.drw 0xF 0xF 0xF).wellFormed = true ∧ (Instr.shl 0xF 0xF).wellFormed = true ∧
    (Instr.nop 0xFFFF).wellFormed = true := by decide

theorem witness_decoder_follows_opcode_map :
    (∃ r ∈ opcodeRows, r.selects 0x8FFE = true) ∧ ∀ r ∈ opcodeRows, r.selects 0x8FFF = false := by
  decide

theorem witness_step_runs :
    decodeBytes [(busy 0x2ABC).mem.read (busy 0x2ABC).pc.toNat, (busy 0x2ABC).mem.read ((busy 0x2ABC).pc.toNat + 1)] =
      .ok (.call 0xABC, []) := by decide

theorem witness_placed_instruction : (Instr.ldMemVx 0xF).wellFormed = true ∧ (Instr.nop 0).wellFormed = true := by
  decide

theorem witness_undefined_word : undefinedWord (busy 0x5AB1).fetchWord = true := by decide

theorem witness_step_answers : ∃ t, step (busy 0xFA55) = .next t := ⟨_, rfl⟩

/-- One state for each clause of `PcAfterACycle`, at both sides where the clause asks about the state. -/
theorem witness_pc_after_a_cycle :
    decodeWord (busy 0x1FFF).fetchWord = .jp 0xFFF ∧
    (decodeWord ((busy 0x2FFF).setSp 15).fetchWord = .call 0xFFF ∧ ((busy 0x2FFF).setSp 15).sp.val < 16) ∧
    (decodeWord ((busy 0x2FFF).setSp 16).fetchWord = .call 0xFFF ∧ ¬ ((busy 0x2FFF).setSp 16).sp.val < 16) ∧
    (decodeWord ((busy 0x00EE).setSp 1).fetchWord = .ret ∧ 0 < ((busy 0x00EE).setSp 1).sp.val) ∧
    (decodeWord ((busy 0x00EE).setSp 0).fetchWord = .ret ∧ ¬ 0 < ((busy 0x00EE).setSp 0).sp.val) ∧
    decodeWord (busy 0xBFFF).fetchWord = .jpV0 0xFFF ∧
    (decodeWord (busy 0xFA0A).fetchWord = .ldVxK 0xA ∧ ∃ k, (busy 0xFA0A).keyDown k = true) ∧
    (decodeWord (at200 0xFA0A).fetchWord = .ldVxK 0xA ∧ ¬ ∃ k, (at200 0xFA0A).keyDown k = true) ∧
    decodeWord (busy 0xFA55).fetchWord = .ldMemVx 0xA := by decide

/-- The skips of `PcAfterACycle`, each on both sides of its condition. -/
theorem witness_pc_after_a_skip :
    (decodeWord (busy 0x3A31).fetchWord = .seImm 0xA 0x31 ∧ (busy 0x3A31).readV 0xA = 0x31) ∧
    (decodeWord (busy 0x3A30).fetchWord = .seImm 0xA 0x30 ∧ (busy 0x3A30).readV 0xA ≠ 0x30) ∧
    (decodeWord (busy 0x4A31).fetchWord = .sneImm 0xA 0x31 ∧ (busy 0x4A31).readV 0xA = 0x31) ∧
    (decodeWord (busy 0x4A30).fetchWord = .sneImm 0xA 0x30 ∧ (busy 0x4A30).readV 0xA ≠ 0x30) ∧
    (decodeWord (busy 0x5AA0).fetchWord = .seReg 0xA 0xA ∧ (busy 0x5AA0).readV 0xA = (busy 0x5AA0).readV 0xA) ∧
    (decodeWord (busy 0x5AB0).fetchWord = .seReg 0xA 0xB ∧ (busy 0x5AB0).readV 0xA ≠ (busy 0x5AB0).readV 0xB) ∧
    (decodeWord (busy 0x9AA0).fetchWord = .sneReg 0xA 0xA ∧ (busy 0x9AA0).readV 0xA = (busy 0x9AA0).readV 0xA) ∧
    (decodeWord (busy 0x9AB0).fetchWord = .sneReg 0xA 0xB ∧ (busy 0x9AB0).readV 0xA ≠ (busy 0x9AB0).readV 0xB) := by
  decide

theorem witness_pc_after_a_key_skip :
    (decodeWord ((busy 0xEA9E).writeV 0xA 0xF3).fetchWord = .skp 0xA ∧
      ((busy 0xEA9E).writeV 0xA 0xF3).keyDown ((((busy 0xEA9E).writeV 0xA 0xF3).readV 0xA).setWidth 4) = true) ∧
    (decodeWord (busy 0xEA9E).fetchWord = .skp 0xA ∧
      (busy 0xEA9E).keyDown (((busy 0xEA9E).readV 0xA).setWidth 4) = false) ∧
    (decodeWord ((busy 0xEAA1).writeV 0xA 0xF3).fetchWord = .sknp 0xA ∧
      ((busy 0xEAA1).writeV 0xA 0xF3).keyDown ((((busy 0xEAA1).writeV 0xA 0xF3).readV 0xA).setWidth 4) = true) ∧
    (decodeWord (busy 0xEAA1).fetchWord = .sknp 0xA ∧
      (busy 0xEAA1).keyDown (((busy 0xEAA1).readV 0xA).setWidth 4) = false) := by decide

/-- The two clauses of `CallPushesOrIsIgnored` and of `ReturnPopsOrIsIgnored`, at the values where they meet. -/
theorem witness_call_and_return_clauses :
    (State.reset.setSp 16).sp.val = 16 ∧ (State.reset.setSp 15).sp.val ≠ 16 ∧
    (State.reset.setSp 0).sp.val = 0 ∧ (State.reset.setSp 1).sp.val ≠ 0 := by decide

theorem witness_return_comes_back :
    ∃ t u : State, (stacked 15 State.reset).sp.val < 16 ∧ exec (.call 0xABC) (stacked 15 State.reset) = .next t ∧
      u.sp = t.sp ∧ u.stack = t.stack ∧ u.pc = 0x0300 ∧ t.pc = 0x0ABC := by
  refine ⟨_, State.setPc _ 0x0300, by decide, rfl, rfl, rfl, rfl, by decide⟩

theorem witness_nested_calls : State.reset.sp.val + (List.replicate 16 (0xABC : Imm12)).length ≤ 16 := by decide

/-- The premise of the flag clauses of `AddWritesSumAndCarry`, `SubtractionsWriteDifferenceAndFlag` and
`ShiftsMoveOneBitOut`. -/
theorem witness_destination_not_vf : (0xE : Nibble) ≠ vF ∧ (0x0 : Nibble) ≠ vF := by decide

theorem witness_flags_are_zero_or_one :
    (∃ t, exec (.addReg 0xE 0xF) (busy 0) = .next t) ∧ (0xE : Nibble) ≠ vF ∧
    ∃ t, exec (.drw 0xF 0xF 0xF) (busy 0) = .next t := ⟨⟨_, rfl⟩, by decide, ⟨_, rfl⟩⟩

theorem witness_random_byte_is_masked : (0x0F : Byte).getLsbD 4 = false ∧ (0x00 : Byte).getLsbD 0 = false := by decide

/-- The clauses of the block moves and of the decimal store: the last register moved, the first one kept, the last byte
stored and the first one kept. -/
theorem witness_block_moves :
    (0x3 : Nibble).toNat ≤ (0x3 : Nibble).toNat ∧ (0x3 : Nibble).toNat < (0x4 : Nibble).toNat ∧
    (0xFFE + 2) % 4096 = 0x1000 % 4096 ∧ ∀ k, k < 3 → (0xFFE + k) % 4096 ≠ 0x001 % 4096 := by decide

theorem witness_block_load_undoes_block_store :
    ∃ t u : State, exec (.ldMemVx 0xF) ((busy 0).setI 0x0FF8) = .next t ∧ u.mem = t.mem ∧
      u.i = ((busy 0).setI 0x0FF8).i ∧ u.v = Vector.replicate 16 0 :=
  let s := (busy 0).setI 0x0FF8
  let t := s.setMem (s.mem.writeList (s.addrI 0) (s.regsUpTo 0xF))
  ⟨t, t.setV (Vector.replicate 16 0), rfl, rfl, rfl, rfl⟩

/-- The two clauses of `ByteWrittenIsByteRead`, at an alias and at a neighbour. -/
theorem witness_byte_written : 0x1000 % 4096 = 0x000 % 4096 ∧ 0xFFF % 4096 ≠ 0x1000 % 4096 := by decide

/-- The clauses of `StoreIsSeenByTheNextFetch`: the last register stored over the byte at `pc`, the first one over the byte
at `pc + 1`, under an alias, and the last digit over the byte at `pc`. -/
theorem witness_store_is_seen :
    (0xF : Nibble).toNat ≤ (0xF : Nibble).toNat ∧
    (((busy 0).setI 0x0FF0).i.toNat + (0xF : Nibble).toNat) % 4096 = ((busy 0).setI 0x0FF0).pc.toNat % 4096 ∧
    (((busy 0).setI 0x1000).i.toNat + (0x0 : Nibble).toNat) % 4096 = (((busy 0).setI 0x1000).pc.toNat + 1) % 4096 ∧
    [((busy 0).readV 0xA).toNat / 100, ((busy 0).readV 0xA).toNat / 10 % 10, ((busy 0).readV 0xA).toNat % 10][2]? =
      some (9 : Byte).toNat ∧
    (((busy 0).setI 0x0FFD).i.toNat + 2) % 4096 = ((busy 0).setI 0x0FFD).pc.toNat % 4096 := by decide

/-- A lit screen for the first part, a dark one for the second. -/
theorem witness_draw_twice :
    (0xA : Nibble) ≠ vF ∧ (0xB : Nibble) ≠ vF ∧
    (∃ t, exec (.drw 0xA 0xB 5) (light [0, 2047] (busy 0)) = .next t) ∧
    (∃ t, exec (.drw 0xA 0xB 5) (busy 0) = .next t) ∧ ∀ row col, (busy 0).fb.get row col = false :=
  ⟨by decide, by decide, ⟨_, rfl⟩, ⟨_, rfl⟩, fun row col => by
    show (State.reset.fb).get row col = false
    simp [Framebuffer.get, State.reset]⟩

theorem witness_draw_coordinates : 31 < 32 ∧ 63 < 64 ∧ (light [2047] State.reset).fb.get 31 63 = true := by decide

theorem witness_key_skips :
    (0x5 : Nibble).toNat = ((State.reset.writeV 0xA 0xF5).readV 0xA).toNat % 16 ∧
    (0xF : Nibble).toNat = ((State.reset.writeV 0xA 0xFF).readV 0xA).toNat % 16 := by decide

/-- The clauses of `KeyWaitTakesTheLeastKey`: the key 0, the key F alone, and no key. -/
theorem witness_key_wait :
    ((State.reset.writeKey 0 true).keyDown 0 = true ∧
      ∀ j : Nibble, j.toNat < (0 : Nibble).toNat → (State.reset.writeKey 0 true).keyDown j = false) ∧
    ((State.reset.writeKey 0xF true).keyDown 0xF = true ∧
      ∀ j : Nibble, j.toNat < (0xF : Nibble).toNat → (State.reset.writeKey 0xF true).keyDown j = false) ∧
    ∀ k : Nibble, State.reset.keyDown k = false := by decide

theorem witness_key_wait_stalls :
    decodeWord (at200 0xFA0A).fetchWord = .ldVxK 0xA ∧ ∀ k, (at200 0xFA0A).keyDown k = false := by decide

/-- The bounds of `ResetLeavesTheSpecsValues` at their ends, and a state that meets its premise. -/
theorem witness_reset_bounds :
    15 < 16 ∧ 0x4F < 0x50 ∧ 74 < 75 ∧ 0xA0 ≤ 0xA0 ∧ 0xFFF < 4096 ∧ 0x4F + 1 = 0x50 ∧ 0x54 + 1 = 0x55 ∧
    0x55 + 74 + 1 = 0xA0 ∧ ∃ r, r = State.resetWith (Vector.replicate 75 7) := by
  refine ⟨by decide, by decide, by decide, by decide, by decide, by decide, by decide, by decide, _, rfl⟩

theorem witness_step_keeps_the_invariant : ∃ t, (busy 0xFA55).Inv ∧ step (busy 0xFA55) = .next t :=
  ⟨_, by decide, rfl⟩

theorem witness_histories_keep_the_invariant :
    ∃ t, (busy 0).Inv ∧
      runMoves defaultFont [.keySet 7, .load [0x12, 0x00], .cycle, .tick, .keyClear 7, .reset] (busy 0) = .next t :=
  ⟨_, by decide, rfl⟩

theorem witness_histories_complete :
    ∀ image, Move.load image ∈ [.cycle, .load [0x12, 0x00], .tick, .load []] → image.length ≤ 3584 := by
  intro image h
  simp only [List.mem_cons, Move.load.injEq, reduceCtorEq, List.not_mem_nil, or_false, false_or] at h
  rcases h with rfl | rfl <;> decide

theorem witness_key_moves : (0x2 : Nibble) ≠ 0x7 ∧ ∃ t, step (busy 0xFA0A) = .next t := ⟨by decide, _, rfl⟩

theorem witness_sound :
    (∃ t, exec (.ldStVx 0xA) (busy 0) = .next t) ∧
    ∃ t, move defaultFont .tick (State.reset.setSt 1) = .next t ∧ (State.reset.setSt 1).sound = true := ⟨⟨_, rfl⟩, _, rfl, by decide⟩

/-- Images of 3584 and 3585 bytes, and the last byte's place in the first. -/
theorem witness_load :
    (List.replicate 3584 (1 : Byte)).length ≤ 3584 ∧ 3584 < (List.replicate 3585 (1 : Byte)).length ∧
    3583 < (List.replicate 3584 (1 : Byte)).length := by
  refine ⟨?_, ?_, ?_⟩ <;> rw [List.length_replicate] <;> omega

theorem witness_first_cycle :
    ([0x60, 0xEA] : List Byte).length + 2 ≤ 3584 ∧ (List.replicate 3582 (1 : Byte)).length + 2 ≤ 3584 := by
  refine ⟨by decide, ?_⟩
  rw [List.length_replicate]

theorem witness_instructions_write_only_their_row :
    (∃ t, exec (.ldVxMem 0x3) (busy 0) = .next t) ∧ writesReg 0x4 (.ldVxMem 0x3) = false := ⟨⟨_, rfl⟩, by decide⟩

/-- One state for each clause of `ReportTellsIgnoredCallsAndReturns`. -/
theorem witness_report :
    (∃ t, step ((at200 0x2ABC).setSp 16) = .next t ∧ decodeWord ((at200 0x2ABC).setSp 16).fetchWord = .call 0xABC) ∧
    (∃ t, step ((at200 0x2ABC).setSp 15) = .next t ∧ decodeWord ((at200 0x2ABC).setSp 15).fetchWord = .call 0xABC) ∧
    (∃ t, step (at200 0x00EE) = .next t ∧ decodeWord (at200 0x00EE).fetchWord = .ret) ∧
    (∃ t, step ((at200 0x00EE).setSp 1) = .next t ∧ decodeWord ((at200 0x00EE).setSp 1).fetchWord = .ret) ∧
    ∃ t, step (at200 0x00E0) = .next t ∧ decodeWord (at200 0x00E0).fetchWord = .cls :=
  ⟨⟨_, rfl, by decide⟩, ⟨_, rfl, by decide⟩, ⟨_, rfl, by decide⟩, ⟨_, rfl, by decide⟩, ⟨_, rfl, by decide⟩⟩

/-- A CALL, which writes the stack, a RET, which moves `sp` down, and another cycle. -/
theorem witness_stack_moves :
    (∃ t, step (busy 0x2ABC) = .next t ∧ t.stack ≠ (busy 0x2ABC).stack) ∧
    (∃ t, step (busy 0x00EE) = .next t ∧ t.sp.val + 1 = (busy 0x00EE).sp.val) ∧
    ∃ t, step (busy 0x00E0) = .next t := ⟨⟨_, rfl, by decide⟩, ⟨_, rfl, by decide⟩, ⟨_, rfl⟩⟩

theorem witness_only_rnd_draws :
    (∃ t, step (busy 0xCA0F) = .next t ∧ decodeWord (busy 0xCA0F).fetchWord = .rnd 0xA 0x0F) ∧
    ∃ t, step (busy 0xFA07) = .next t ∧ decodeWord (busy 0xFA07).fetchWord = .ldVxDt 0xA :=
  ⟨⟨_, rfl, by decide⟩, ⟨_, rfl, by decide⟩⟩

/-- Two states that differ in all three fields, an instruction that loads `ST`, and one that does not. -/
theorem witness_nothing_reads :
    KeepsAllBut [.st, .opcode, .report] (busy 0) ((((busy 0).setSt 9).setOpcode 0x1234).setReport 1) ∧
    (∃ t, exec (.ldStVx 0xA) (busy 0) = .next t) ∧ ∃ t, exec .cls (busy 0) = .next t :=
  ⟨fun f hf => by cases f <;> first | rfl | simp at hf, ⟨_, rfl⟩, ⟨_, rfl⟩⟩

theorem witness_jump_to_itself :
    decodeWord (at200 0x1200).fetchWord = .jp 0x200 ∧ (at200 0x1200).pc.toNat = (0x200 : Imm12).toNat := by decide

end Sys2Proof.Tests
end

section
/-! PROOFS. The state (10_state.md). The facts about instructions that these obligations share come first: the outcomes
of the three instructions that branch, the frame of every instruction, and which instructions write a given field. The
obligations are then read off them. -/

namespace Sys2Proof.Machine

/-! ### The instructions with two outcomes -/

/-- CALL pushes and jumps, or reports a full stack (41_control.md R92). -/
theorem exec_call_cases {nnn : Imm12} {s t : State} (h : exec (.call nnn) s = .next t) :
    (∃ room : s.sp.val < 16, t = (s.push s.pc room).setPc (zext12 nnn)) ∨
      (¬ s.sp.val < 16 ∧ t = s.setReport reportOverflow) := by
  change execCall nnn s = .next t at h
  by_cases room : s.sp.val < 16
  · rw [execCall_room nnn room] at h
    exact .inl ⟨room, (Host.Outcome.next.inj h).symm⟩
  · rw [execCall_full nnn room] at h
    exact .inr ⟨room, (Host.Outcome.next.inj h).symm⟩

/-- RET pops and jumps, or reports an empty stack (41_control.md R90). -/
theorem exec_ret_cases {s t : State} (h : exec .ret s = .next t) :
    (∃ active : 0 < s.sp.val, t = s.drop.setPc (s.top active)) ∨
      (¬ 0 < s.sp.val ∧ t = s.setReport reportUnderflow) := by
  change execRet s = .next t at h
  by_cases active : 0 < s.sp.val
  · rw [execRet_active active] at h
    exact .inl ⟨active, (Host.Outcome.next.inj h).symm⟩
  · rw [execRet_empty active] at h
    exact .inr ⟨active, (Host.Outcome.next.inj h).symm⟩

theorem execLdVxK_eq (x : Nibble) (s : State) :
    execLdVxK x s = .next (s.firstKey.elim s.rewind fun k => s.writeV x (BitVec.ofNat 8 k)) := by
  unfold execLdVxK
  cases s.firstKey <;> rfl

/-- The key wait takes the least pressed key, or stalls (45_keypad_timers.md R153). -/
theorem exec_ldVxK_cases {x : Nibble} {s t : State} (h : exec (.ldVxK x) s = .next t) :
    (∃ k, s.firstKey = some k ∧ t = s.writeV x (BitVec.ofNat 8 k)) ∨ (s.firstKey = none ∧ t = s.rewind) := by
  obtain rfl := Host.Outcome.next.inj ((execLdVxK_eq x s).symm.trans h)
  cases s.firstKey with
  | some k => exact .inl ⟨k, rfl, rfl⟩
  | none => exact .inr ⟨rfl, rfl⟩

/-! ### Frames of the shared operations -/

theorem keepsAllBut_skipIf (s : State) (c : Bool) : KeepsAllBut [.pc] s (s.skipIf c) := by
  rw [State.skipIf_eq]; exact keepsAllBut_setPc s _

theorem keepsAllBut_writeFlagThenResult (s : State) (x : Nibble) (f r : Byte) :
    KeepsAllBut [.v] s (s.writeFlagThenResult x f r) := by
  rw [State.writeFlagThenResult_eq]; exact keepsAllBut_setV s _

theorem keepsAllBut_loadRegs (s : State) (x : Nibble) : KeepsAllBut [.v] s (s.loadRegs x) := by
  rw [State.loadRegs_eq]; exact keepsAllBut_setV s _

theorem keepsAllBut_push (s : State) (w : Word) (h : s.sp.val < 16) : KeepsAllBut [.stack, .sp] s (s.push w h) :=
  (keepsAllBut_setStack s _).trans (keepsAllBut_setSp _ _)

/-- A list of bytes stored leaves every byte outside its addresses alone. -/
theorem bytesKeptOutside_writeList (s : State) (a : Nat) (bs : List Byte) :
    BytesKeptOutside a bs.length s (s.setMem (s.mem.writeList a bs)) :=
  fun b hb => Memory.read_writeList_outside s.mem a bs b hb

/-! ### The frame of every instruction (10_state.md R24) -/

/-- An instruction writes no field outside its row of the access matrix. -/
theorem exec_keepsAllBut_writesFields {i : Instr} {s t : State} (h : exec i s = .next t) :
    KeepsAllBut (writesFields i) s t := by
  cases i
  case cls => cases h; exact keepsAllBut_setFb _ _
  case ret =>
    obtain ⟨_, rfl⟩ | ⟨_, rfl⟩ := exec_ret_cases h
    · exact ((keepsAllBut_setSp s _).trans (keepsAllBut_setPc _ _)).mono (by simp [writesFields])
    · exact (keepsAllBut_setReport _ _).mono (by simp [writesFields])
  case call =>
    obtain ⟨_, rfl⟩ | ⟨_, rfl⟩ := exec_call_cases h
    · exact ((keepsAllBut_push _ _ _).trans (keepsAllBut_setPc _ _)).mono (by simp [writesFields])
    · exact (keepsAllBut_setReport _ _).mono (by simp [writesFields])
  case jp | jpV0 => cases h; exact keepsAllBut_setPc _ _
  case seImm | sneImm | seReg | sneReg | skp | sknp => cases h; exact keepsAllBut_skipIf _ _
  case ldImm | addImm | ldReg | orReg | andReg | xorReg | ldVxDt => cases h; exact keepsAllBut_writeV _ _ _
  case addReg | subReg | subnReg | shr | shl => cases h; exact keepsAllBut_writeFlagThenResult _ _ _ _
  case ldI | addI | ldF => cases h; exact keepsAllBut_setI _ _
  case rnd => cases h; exact ((keepsAllBut_setRng s _).trans (keepsAllBut_writeV _ _ _)).mono (by simp [writesFields])
  case drw => cases h; exact ((keepsAllBut_setFb s _).trans (keepsAllBut_writeV _ _ _)).mono (by simp [writesFields])
  case ldVxK =>
    obtain ⟨_, _, rfl⟩ | ⟨_, rfl⟩ := exec_ldVxK_cases h
    · exact (keepsAllBut_writeV _ _ _).mono (by simp [writesFields])
    · exact (keepsAllBut_setPc _ _).mono (by simp [writesFields])
  case ldDtVx => cases h; exact keepsAllBut_setDt _ _
  case ldStVx => cases h; exact keepsAllBut_setSt _ _
  case ldB | ldMemVx => cases h; exact keepsAllBut_setMem _ _
  case ldVxMem => cases h; exact keepsAllBut_loadRegs _ _
  case nop => cases h; exact KeepsAllBut.refl _ _

/-- LD B and LD [I], Vx are the only instructions that write memory (20_memory.md R45). -/
theorem mem_mem_writesFields {i : Instr} (h : .mem ∈ writesFields i) :
    (∃ x, i = .ldB x) ∨ ∃ x, i = .ldMemVx x := by
  cases i <;> simp [writesFields] at h ⊢

/-- CALL is the only instruction that writes the stack. -/
theorem stack_mem_writesFields {i : Instr} (h : .stack ∈ writesFields i) : ∃ nnn, i = .call nnn := by
  cases i <;> simp [writesFields] at h ⊢

/-- CALL and RET are the only instructions that move `sp`. -/
theorem sp_mem_writesFields {i : Instr} (h : .sp ∈ writesFields i) : (∃ nnn, i = .call nnn) ∨ i = .ret := by
  cases i <;> simp [writesFields] at h ⊢

/-- RND is the only instruction that draws. -/
theorem rng_mem_writesFields {i : Instr} (h : .rng ∈ writesFields i) : ∃ x kk, i = .rnd x kk := by
  cases i <;> simp [writesFields] at h ⊢

/-- An instruction writes no register outside its row. -/
theorem exec_readV_of_not_writesReg {i : Instr} {s t : State} (h : exec i s = .next t) {r : Nibble}
    (hr : writesReg r i = false) : t.readV r = s.readV r := by
  by_cases hv : .v ∈ writesFields i
  · cases i
    case ldImm | addImm | ldReg | orReg | andReg | xorReg | ldVxDt | rnd | drw =>
      cases h; exact State.readV_writeV_ne _ _ (beq_eq_false_iff_ne.mp hr)
    case addReg | subReg | subnReg | shr | shl =>
      cases h
      obtain ⟨hx, hF⟩ := Bool.or_eq_false_iff.mp hr
      exact State.readV_writeFlagThenResult_other _ _ _ (beq_eq_false_iff_ne.mp hx) (beq_eq_false_iff_ne.mp hF)
    case ldVxK =>
      obtain ⟨_, _, rfl⟩ | ⟨_, rfl⟩ := exec_ldVxK_cases h
      · exact State.readV_writeV_ne _ _ (beq_eq_false_iff_ne.mp hr)
      · rfl
    case ldVxMem =>
      cases h
      rw [State.readV_loadRegs, if_neg (of_decide_eq_false hr)]
    all_goals simp [writesFields] at hv
  · have hkeep : t.v = s.v := exec_keepsAllBut_writesFields h .v hv
    simp only [State.readV, hkeep]

/-- An instruction writes no byte but those it stores from `I` on. -/
theorem exec_bytesKeptOutside {i : Instr} {s t : State} (h : exec i s = .next t) :
    BytesKeptOutside (s.addrI 0) (storeLength i) s t := by
  by_cases hm : .mem ∈ writesFields i
  · obtain ⟨x, rfl⟩ | ⟨x, rfl⟩ := mem_mem_writesFields hm
    · cases h; exact bytesKeptOutside_writeList s _ (decimalDigits (s.readV x))
    · cases h
      rw [storeLength, ← State.length_regsUpTo s x]
      exact bytesKeptOutside_writeList s _ _
  · have hkeep : t.mem = s.mem := exec_keepsAllBut_writesFields h .mem hm
    exact fun b _ => by rw [hkeep]

end Sys2Proof.Machine

namespace Sys2Proof.Proofs

open Sys2Proof.Machine

/-- Settles O53: the frames by field, by register and by byte. -/
theorem instructionsWriteOnlyTheirRow : Obligations.InstructionsWriteOnlyTheirRow := fun _ _ _ h =>
  ⟨exec_keepsAllBut_writesFields h, fun _ hr => exec_readV_of_not_writesReg h hr, exec_bytesKeptOutside h⟩

/-- Settles O56: outside RND the field `rng` is in no row. -/
theorem onlyRndDraws : Obligations.OnlyRndDraws := by
  intro s t h
  rw [step_eq] at h
  split
  next x kk hi => rw [hi] at h; cases h; rfl
  next hi =>
    refine exec_keepsAllBut_writesFields h .rng fun hm => ?_
    obtain ⟨x, kk, e⟩ := rng_mem_writesFields hm
    exact hi x kk e

end Sys2Proof.Proofs

/-! ### The stack (10_state.md R15) -/

namespace Sys2Proof.Machine

@[simp] theorem State.push_sp_val (s : State) (w : Word) (h : s.sp.val < 16) :
    (s.push w h).sp.val = s.sp.val + 1 := rfl
@[simp] theorem State.drop_sp_val (s : State) : s.drop.sp.val = s.sp.val - 1 := rfl

/-- A push fills the slot at `sp`. -/
theorem State.getElem?_push_stack_sp (s : State) (w : Word) (h : s.sp.val < 16) :
    (s.push w h).stack[s.sp.val]? = some w := by
  simp [State.push, h]

/-- A push leaves every other slot alone. -/
theorem State.getElem?_push_stack_ne (s : State) (w : Word) (h : s.sp.val < 16) {k : Nat} (hk : k ≠ s.sp.val) :
    (s.push w h).stack[k]? = s.stack[k]? := by
  simp [State.push, Vector.getElem?_set_ne _ hk.symm]

/-- The top entry is the slot below `sp`. -/
theorem State.getElem?_stack_eq_top (s : State) (h : 0 < s.sp.val) : s.stack[s.sp.val - 1]? = some (s.top h) := by
  have := s.sp.isLt
  rw [State.top, Vector.getElem?_eq_getElem]

/-- Any instruction moves `sp` by at most one. -/
theorem exec_sp_moves_one {i : Instr} {s t : State} (h : exec i s = .next t) :
    t.sp.val ≤ s.sp.val + 1 ∧ s.sp.val ≤ t.sp.val + 1 := by
  by_cases hsp : .sp ∈ writesFields i
  · obtain ⟨nnn, rfl⟩ | rfl := sp_mem_writesFields hsp
    · obtain ⟨_, rfl⟩ | ⟨_, rfl⟩ := exec_call_cases h
      · rw [State.setPc_sp, State.push_sp_val]; omega
      · rw [State.setReport_sp]; omega
    · obtain ⟨_, rfl⟩ | ⟨_, rfl⟩ := exec_ret_cases h
      · rw [State.setPc_sp, State.drop_sp_val]; omega
      · rw [State.setReport_sp]; omega
  · have hkeep : t.sp = s.sp := exec_keepsAllBut_writesFields h .sp hsp
    rw [hkeep]; omega

/-- Any instruction writes at most the slot at `sp`. -/
theorem exec_stack_ne_sp {i : Instr} {s t : State} (h : exec i s = .next t) {k : Nat} (hk : k ≠ s.sp.val) :
    t.stack[k]? = s.stack[k]? := by
  by_cases hst : .stack ∈ writesFields i
  · obtain ⟨nnn, rfl⟩ := stack_mem_writesFields hst
    obtain ⟨room, rfl⟩ | ⟨_, rfl⟩ := exec_call_cases h
    · exact s.getElem?_push_stack_ne _ room hk
    · rfl
  · have hkeep : t.stack = s.stack := exec_keepsAllBut_writesFields h .stack hst
    rw [hkeep]

/-- Meanings in sequence are the first ones and then the others. -/
theorem execAll_append {is js : List Instr} {s t : State} (h : execAll is s = .next t) :
    execAll (is ++ js) s = execAll js t := by
  induction is generalizing s with
  | nil => cases h; rfl
  | cons i is ih =>
    rw [execAll] at h
    split at h
    next u hu => rw [List.cons_append, execAll, hu]; exact ih h
    next => cases h
    next => cases h

theorem execAll_cons {i : Instr} {is : List Instr} {s t : State} (h : exec i s = .next t) :
    execAll (i :: is) s = execAll is t := by
  rw [execAll, h]

/-- Nested calls and as many returns, with what the induction needs: the slots below the first call's are kept. -/
theorem execAll_calls_then_rets (targets : List Imm12) (s : State) (fits : s.sp.val + targets.length ≤ 16) :
    ∃ t u, execAll (targets.map .call) s = .next t ∧ t.sp.val = s.sp.val + targets.length ∧
      execAll (List.replicate targets.length .ret) t = .next u ∧ u.pc = s.pc ∧ u.sp = s.sp ∧
      ∀ k, k < s.sp.val → u.stack[k]? = s.stack[k]? := by
  induction targets generalizing s with
  | nil => exact ⟨s, s, rfl, rfl, rfl, rfl, rfl, fun _ _ => rfl⟩
  | cons nnn targets ih =>
    rw [List.length_cons] at fits
    have room : s.sp.val < 16 := by omega
    have called : exec (.call nnn) s = .next ((s.push s.pc room).setPc (zext12 nnn)) := execCall_room nnn room
    obtain ⟨t, u, calls, tsp, rets, -, usp, ustack⟩ := ih ((s.push s.pc room).setPc (zext12 nnn)) (by simp; omega)
    have uspVal : u.sp.val = s.sp.val + 1 := congrArg Fin.val usp
    have active : 0 < u.sp.val := by omega
    have top : u.top active = s.pc := by
      have slot := u.getElem?_stack_eq_top active
      rw [show u.sp.val - 1 = s.sp.val by omega, ustack _ (Nat.lt_succ_self _)] at slot
      exact Option.some.inj (slot.symm.trans (s.getElem?_push_stack_sp s.pc room))
    refine ⟨t, u.drop.setPc (u.top active), ?_, ?_, ?_, top, Fin.ext ?_, fun k hk => ?_⟩
    · rw [List.map_cons, execAll_cons called, calls]
    · rw [tsp, List.length_cons, State.setPc_sp, State.push_sp_val]; omega
    · rw [List.length_cons, List.replicate_succ', execAll_append rets]
      exact execAll_cons (execRet_active active)
    · rw [State.setPc_sp, State.drop_sp_val]; omega
    · exact (ustack k (Nat.lt_succ_of_lt hk)).trans (s.getElem?_push_stack_ne s.pc room (Nat.ne_of_lt hk))

end Sys2Proof.Machine

namespace Sys2Proof.Proofs

open Sys2Proof.Machine

/-- Settles O55: the fetch moves neither `sp` nor the stack, and CALL alone has the stack in its row. -/
theorem stackMovesOneEntryAtATime : Obligations.StackMovesOneEntryAtATime := by
  intro s t h
  rw [step_eq] at h
  obtain ⟨up, down⟩ := exec_sp_moves_one h
  refine ⟨up, down, fun k hk => exec_stack_ne_sp h hk, fun changed => ?_⟩
  by_contra hi
  exact changed (exec_keepsAllBut_writesFields h .stack fun hm => hi (stack_mem_writesFields hm))

/-- Settles O17, by induction on the targets. -/
theorem nestedCallsReturnInOrder : Obligations.NestedCallsReturnInOrder := by
  intro targets s fits
  obtain ⟨t, u, calls, tsp, rets, pc, sp, -⟩ := execAll_calls_then_rets targets s fits
  exact ⟨t, u, calls, tsp, rets, pc, sp⟩

end Sys2Proof.Proofs

/-! ### The program counter (10_state.md R14) -/

namespace Sys2Proof.Machine

theorem toNat_zext12 (nnn : Imm12) : (zext12 nnn).toNat = nnn.toNat :=
  BitVec.toNat_setWidth_of_le (by decide)

/-- The sum of JP V0 stays below 65536 (41_control.md R97). -/
theorem toNat_zext8_add_zext12 (b : Byte) (nnn : Imm12) : (zext8 b + zext12 nnn).toNat = b.toNat + nnn.toNat := by
  have hb : (zext8 b).toNat = b.toNat := BitVec.toNat_setWidth_of_le (by decide)
  have := b.isLt
  have := nnn.isLt
  rw [BitVec.toNat_add, hb, toNat_zext12]
  omega

/-- The skip after the fetch (41_control.md R98). -/
theorem State.skipIf_fetched_pc (s : State) (c : Bool) :
    (s.fetched.skipIf c).pc = if c = true then s.pc + 4 else s.pc + 2 := by
  rw [State.skipIf_eq, State.setPc_pc, State.fetched_pc, BitVec.add_assoc]
  rfl

theorem State.rewind_fetched_pc (s : State) : s.fetched.rewind.pc = s.pc := BitVec.add_sub_cancel s.pc 2

/-- The scan of R153 finds a key exactly when one is pressed. -/
theorem State.exists_keyDown_of_firstKey_eq_some {s : State} {k : Nat} (h : s.firstKey = some k) :
    ∃ j, s.keyDown j = true := ⟨_, ((s.firstKey_eq_some k).mp h).1⟩

end Sys2Proof.Machine

namespace Sys2Proof.Proofs

open Sys2Proof.Machine

/-- Settles O11: the instructions with `pc` in their row one by one; for the others the frame keeps what the fetch
left. -/
theorem pcAfterACycle : Obligations.PcAfterACycle := by
  intro s t h
  rw [step_eq] at h
  have frame := exec_keepsAllBut_writesFields h
  generalize decodeWord s.fetchWord = i at h frame
  cases i
  case jp nnn => cases h; exact toNat_zext12 nnn
  case jpV0 nnn => cases h; exact toNat_zext8_add_zext12 _ nnn
  case call nnn =>
    obtain ⟨room, rfl⟩ | ⟨full, rfl⟩ := exec_call_cases h
    · exact (if_pos room).mpr (toNat_zext12 nnn)
    · exact (if_neg full).mpr rfl
  case ret =>
    obtain ⟨active, rfl⟩ | ⟨empty, rfl⟩ := exec_ret_cases h
    · exact (dif_pos active).mpr rfl
    · exact (dif_neg empty).mpr rfl
  case seImm | seReg | sneImm | sneReg => cases h; simp [State.skipIf_fetched_pc]
  case skp => cases h; simp [State.skipIf_fetched_pc, State.keySelect_eq]
  case sknp x =>
    cases h
    cases hk : s.keyDown ((s.readV x).setWidth 4) <;> simp [State.skipIf_fetched_pc, State.keySelect_eq, hk]
  case ldVxK =>
    obtain ⟨k, hk, rfl⟩ | ⟨hk, rfl⟩ := exec_ldVxK_cases h
    · exact (if_pos (State.exists_keyDown_of_firstKey_eq_some hk)).mpr rfl
    · have none_down := s.firstKey_eq_none.mp hk
      exact (if_neg (by simp [none_down])).mpr s.rewind_fetched_pc
  all_goals exact frame .pc (by simp [writesFields])

end Sys2Proof.Proofs

/-! ### Flags (10_state.md R12) -/

namespace Sys2Proof.Machine

theorem flagOf_eq_zero_or_one (c : Bool) : flagOf c = 0 ∨ flagOf c = 1 := by
  cases c
  · exact .inl rfl
  · exact .inr rfl

/-- VF after a flag and a result, where the result goes elsewhere. -/
theorem State.readV_vF_writeFlag (s : State) {x : Nibble} (c : Bool) (r : Byte) (h : x ≠ vF) :
    (s.writeFlagThenResult x (flagOf c) r).readV vF = 0 ∨ (s.writeFlagThenResult x (flagOf c) r).readV vF = 1 := by
  rw [State.readV_writeFlagThenResult_vF s _ _ h]
  exact flagOf_eq_zero_or_one c

end Sys2Proof.Machine

namespace Sys2Proof.Proofs

open Sys2Proof.Machine

/-- Settles O25: each flag is a `flagOf`. -/
theorem flagsAreZeroOrOne : Obligations.FlagsAreZeroOrOne := by
  intro i s t h
  cases i
  case addReg | subReg | subnReg | shr | shl => cases h; exact State.readV_vF_writeFlag _ _ _
  case drw =>
    cases h
    rw [State.readV_writeV_same]
    exact flagOf_eq_zero_or_one _
  all_goals trivial

end Sys2Proof.Proofs

/-! ### The fields no instruction reads (10_state.md R16, R20; 60_exceptions.md R162) -/

namespace Sys2Proof.Machine

/-- A state that keeps every field of another is the other. -/
theorem KeepsAllBut.eq {s t : State} (h : KeepsAllBut [] s t) : t = s := by
  have same : ∀ f : Field, f.Same s t := fun f => h f List.not_mem_nil
  cases s
  cases t
  rw [State.mk.injEq]
  exact ⟨same .v, same .i, same .pc, same .stack, same .sp, same .dt, same .st, same .key, same .fb, same .mem,
    same .rng, same .opcode, same .report⟩

/-- `s` with other values of the three fields that no instruction reads. -/
def State.withUnread (s : State) (st : Byte) (opcode : Word) (report : BitVec 2) : State :=
  ((s.setSt st).setOpcode opcode).setReport report

theorem keepsAllBut_withUnread (s : State) (a : Byte) (b : Word) (c : BitVec 2) :
    KeepsAllBut [.st, .opcode, .report] s (s.withUnread a b c) := fun f hf => by
  cases f
  case st | opcode | report => simp at hf
  all_goals rfl

/-- Two states that differ in the three fields alone. -/
theorem eq_withUnread_of_keepsAllBut {s s' : State} (h : KeepsAllBut [.st, .opcode, .report] s s') :
    s' = s.withUnread s'.st s'.opcode s'.report :=
  KeepsAllBut.eq fun f _ => by
    have kept := h f
    cases f
    case st | opcode | report => rfl
    all_goals exact kept (by decide)

@[simp] theorem State.firstKey_withUnread (s : State) (a : Byte) (b : Word) (c : BitVec 2) :
    (s.withUnread a b c).firstKey = s.firstKey := rfl

theorem State.skipIf_withUnread (s : State) (d : Bool) (a : Byte) (b : Word) (c : BitVec 2) :
    (s.withUnread a b c).skipIf d = (s.skipIf d).withUnread a b c := by
  cases d <;> rfl

theorem State.loadRegs_withUnread (s : State) (x : Nibble) (a : Byte) (b : Word) (c : BitVec 2) :
    (s.withUnread a b c).loadRegs x = (s.loadRegs x).withUnread a b c := by
  have regs : ((s.withUnread a b c).loadRegs x).v = (s.loadRegs x).v :=
    State.v_eq_of_readV fun r => by rw [State.readV_loadRegs, State.readV_loadRegs]; rfl
  rw [State.loadRegs_eq, regs, State.loadRegs_eq s x]
  rfl

/-- LD ST, Vx is the only instruction that loads `ST`. -/
theorem st_mem_writesFields {i : Instr} (h : .st ∈ writesFields i) : ∃ x, i = .ldStVx x := by
  cases i <;> simp [writesFields] at h ⊢

/-- Run with other values of the three fields, an instruction that does not load `ST` answers the same state but for
them; only an ignored CALL or RET sets one, the report. -/
theorem exec_withUnread {i : Instr} {s t : State} (h : exec i s = .next t) (hst : .st ∉ writesFields i) (a : Byte)
    (b : Word) (c : BitVec 2) : ∃ c', exec i (s.withUnread a b c) = .next (t.withUnread a b c') := by
  cases i
  case call nnn =>
    obtain ⟨room, rfl⟩ | ⟨full, rfl⟩ := exec_call_cases h
    · exact ⟨c, execCall_room (s := s.withUnread a b c) nnn room⟩
    · exact ⟨reportOverflow, execCall_full (s := s.withUnread a b c) nnn full⟩
  case ret =>
    obtain ⟨active, rfl⟩ | ⟨empty, rfl⟩ := exec_ret_cases h
    · exact ⟨c, execRet_active (s := s.withUnread a b c) active⟩
    · exact ⟨reportUnderflow, execRet_empty (s := s.withUnread a b c) empty⟩
  case seImm | sneImm | seReg | sneReg | skp | sknp =>
    cases h; exact ⟨c, congrArg Host.Outcome.next (State.skipIf_withUnread ..)⟩
  case ldVxK x =>
    refine ⟨c, (execLdVxK_eq x _).trans ?_⟩
    rw [State.firstKey_withUnread]
    obtain ⟨k, hk, rfl⟩ | ⟨hk, rfl⟩ := exec_ldVxK_cases h
    · rw [hk]; rfl
    · rw [hk]; rfl
  case ldVxMem => cases h; exact ⟨c, congrArg Host.Outcome.next (State.loadRegs_withUnread ..)⟩
  case ldStVx => simp [writesFields] at hst
  all_goals cases h; exact ⟨c, rfl⟩

end Sys2Proof.Machine

namespace Sys2Proof.Proofs

open Sys2Proof.Machine

/-- Settles O57: the other state is the first with three fields replaced. -/
theorem nothingReadsStOpcodeOrReport : Obligations.NothingReadsStOpcodeOrReport := by
  intro i s s' t hs h
  rw [eq_withUnread_of_keepsAllBut hs]
  by_cases hst : .st ∈ writesFields i
  · obtain ⟨x, rfl⟩ := st_mem_writesFields hst
    cases h
    exact ⟨_, rfl, keepsAllBut_withUnread _ (s.readV x) s'.opcode s'.report, .inl rfl⟩
  · obtain ⟨c', answers⟩ := exec_withUnread h hst s'.st s'.opcode s'.report
    exact ⟨_, answers, keepsAllBut_withUnread t _ _ _, .inr ⟨rfl, exec_keepsAllBut_writesFields h .st hst⟩⟩

end Sys2Proof.Proofs

/-! ### Reset (10_state.md R23; 20_memory.md R41) -/

namespace Sys2Proof.Machine

/-- Outside 0x050 to 0x09F an unlisted address reads as 0. -/
theorem unlistedByte_outside_font {a : Nat} (h : a < 0x50 ∨ 0xA0 ≤ a) : unlistedByte a = 0 := by
  unfold unlistedByte
  split
  next ge =>
    rw [List.getD_eq_getElem?_getD, List.getElem?_eq_none]
    · rfl
    · rw [length_fontBytes]
      simp only [Config.fontBase] at ge ⊢
      omega
  next => rfl

theorem State.read_resetWith_eq_zero (f : Font) {a : Nat} (h : a < 0x50 ∨ 0xA0 ≤ a) (ha : a < 4096) :
    (State.resetWith f).mem.read a = 0 := by
  have wrap : a % 4096 = a := Nat.mod_eq_of_lt ha
  rw [State.read_resetWith_outside f a (by rwa [wrap])]
  exact unlistedByte_outside_font (a := a % 4096) (by rwa [wrap])

/-- The first five font bytes are glyph 0, whatever FONT is. -/
theorem State.read_resetWith_glyphZero (f : Font) (k : Nat) (hk : k < 5) :
    (State.resetWith f).mem.read (0x50 + k) = glyphZero[k] := by
  rw [State.read_resetWith_font f k (by omega)]
  exact List.getElem_append_left hk

/-- The 75 font bytes after them are those of FONT. -/
theorem State.read_resetWith_openGlyphs (f : Font) (k : Nat) (hk : k < 75) :
    (State.resetWith f).mem.read (0x55 + k) = f[k] := by
  rw [show 0x55 + k = 0x50 + (5 + k) by omega, State.read_resetWith_font f (5 + k) (by omega)]
  simp only [fontBytes]
  rw [List.getElem_append_right (Nat.le_add_right 5 k)]
  simp [glyphZero]

theorem State.readV_resetWith (f : Font) (x : Nibble) : (State.resetWith f).readV x = 0 :=
  Vector.getElem_replicate ..

theorem State.keyDown_resetWith (f : Font) (k : Nibble) : (State.resetWith f).keyDown k = false :=
  Vector.getElem_replicate ..

theorem State.pixel_resetWith (f : Font) (p : Nat) : (State.resetWith f).pixel p = false :=
  Framebuffer.get_dark _ _

theorem State.getElem?_stack_resetWith (f : Font) {k : Nat} (hk : k < 16) :
    (State.resetWith f).stack[k]? = some 0 :=
  (Vector.getElem?_eq_getElem hk).trans (congrArg some (Vector.getElem_replicate ..))

end Sys2Proof.Machine

namespace Sys2Proof.Proofs

open Sys2Proof.Machine

/-- Settles O42: the fields from `State.reset`, the four ranges of memory from the font's bytes. -/
theorem resetLeavesTheSpecsValues : Obligations.ResetLeavesTheSpecsValues := by
  refine ⟨State.resetWith_default, ?_⟩
  rintro font _ rfl
  refine ⟨State.readV_resetWith font, rfl, rfl, fun _ => State.getElem?_stack_resetWith font, rfl, rfl, rfl,
    State.keyDown_resetWith font, State.pixel_resetWith font, rfl, rfl, fun a low => ?_, ?_,
    State.read_resetWith_openGlyphs font, fun a high => State.read_resetWith_eq_zero font (.inr high)⟩
  · exact State.read_resetWith_eq_zero font (.inl low) (by omega)
  · have glyph := State.read_resetWith_glyphZero font
    rw [glyph 0 (by decide), glyph 1 (by decide), glyph 2 (by decide), glyph 3 (by decide), glyph 4 (by decide)]
    rfl

/-- Settles O43: an empty list is canonical, and the font is entered by writes. -/
theorem resetMeetsTheInvariant : Obligations.ResetMeetsTheInvariant :=
  ⟨⟨Memory.wf_nil, by decide⟩, fun font => ⟨State.wf_resetWith font, by simp⟩⟩

end Sys2Proof.Proofs
end

section
/-! PROOFS. Memory (20_memory.md). First what an instruction does to the two fields of the invariant, and what the fetch
reads of a list of bytes just stored. The obligations are then read off them. -/

namespace Sys2Proof.Machine

/-! ### The invariant (20_memory.md R40, R42; 60_exceptions.md R162) -/

/-- CALL and RET are the only instructions that report. -/
theorem report_mem_writesFields {i : Instr} (h : .report ∈ writesFields i) : (∃ nnn, i = .call nnn) ∨ i = .ret := by
  cases i <;> simp [writesFields] at h ⊢

/-- Memory after an instruction is as before, or a list of bytes was stored from `I` on (20_memory.md R45). -/
theorem exec_mem_cases {i : Instr} {s t : State} (h : exec i s = .next t) :
    t.mem = s.mem ∨ ∃ bs, t.mem = s.mem.writeList (s.addrI 0) bs := by
  by_cases hm : .mem ∈ writesFields i
  · obtain ⟨x, rfl⟩ | ⟨x, rfl⟩ := mem_mem_writesFields hm
    · cases h; exact .inr ⟨decimalDigits (s.readV x), rfl⟩
    · cases h; exact .inr ⟨s.regsUpTo x, rfl⟩
  · exact .inl (exec_keepsAllBut_writesFields h .mem hm)

/-- The report after an instruction is as before, or one of the two codes of R162. -/
theorem exec_report_cases {i : Instr} {s t : State} (h : exec i s = .next t) :
    t.report = s.report ∨ t.report = reportOverflow ∨ t.report = reportUnderflow := by
  by_cases hr : .report ∈ writesFields i
  · obtain ⟨nnn, rfl⟩ | rfl := report_mem_writesFields hr
    · obtain ⟨_, rfl⟩ | ⟨_, rfl⟩ := exec_call_cases h
      · exact .inl rfl
      · exact .inr (.inl rfl)
    · obtain ⟨_, rfl⟩ | ⟨_, rfl⟩ := exec_ret_cases h
      · exact .inl rfl
      · exact .inr (.inr rfl)
  · exact .inl (exec_keepsAllBut_writesFields h .report hr)

/-- The fetch leaves memory alone and clears the report. -/
theorem State.inv_fetched {s : State} (h : s.Inv) : s.fetched.Inv := ⟨h.1, by simp⟩

/-- Every instruction keeps the invariant, also without a fetch before it. -/
theorem exec_keeps_inv {i : Instr} {s t : State} (hs : s.Inv) (h : exec i s = .next t) : t.Inv := by
  obtain ⟨wf, legal⟩ := hs
  constructor
  · obtain same | ⟨bs, stored⟩ := exec_mem_cases h
    · rwa [same]
    · rw [stored]; exact Memory.wf_writeList _ bs wf
  · obtain same | full | empty := exec_report_cases h
    · rwa [same]
    · rw [full]; decide
    · rw [empty]; decide

/-! ### The fetch after a store (20_memory.md R43, R49) -/

/-- Equal addresses modulo 4096 name the same byte (R42). -/
theorem Memory.read_eq_of_mod_eq (m : Memory) {a b : Nat} (h : a % 4096 = b % 4096) : m.read a = m.read b := by
  rw [← Memory.read_mod, h, Memory.read_mod]

/-- A list of bytes stored is read back at every address equal to one of its own modulo 4096. -/
theorem Memory.read_writeList_of_mod_eq (m : Memory) {a b k : Nat} {bs : List Byte} {v : Byte} (hl : bs.length ≤ 4096)
    (hk : bs[k]? = some v) (h : (a + k) % 4096 = b % 4096) : (m.writeList a bs).read b = v := by
  obtain ⟨inside, rfl⟩ := List.getElem?_eq_some_iff.mp hk
  rw [← Memory.read_eq_of_mod_eq _ h]
  exact Memory.read_writeList_inside m a bs hl k inside

@[simp] theorem State.fetchWord_high (s : State) : s.fetchWord.extractLsb' 8 8 = s.mem.read s.pc.toNat :=
  wordOfBytes_high _ _

@[simp] theorem State.fetchWord_low (s : State) : s.fetchWord.extractLsb' 0 8 = s.mem.read (s.pc.toNat + 1) :=
  wordOfBytes_low _ _

/-- A byte stored over the one at `pc` is the high half of the word fetched next, one over the byte at `pc + 1` its low
half. -/
theorem State.fetchWord_after_writeList (s : State) {a k : Nat} {bs : List Byte} {v : Byte} (hl : bs.length ≤ 4096)
    (hk : bs[k]? = some v) :
    ((a + k) % 4096 = s.pc.toNat % 4096 → (s.setMem (s.mem.writeList a bs)).fetchWord.extractLsb' 8 8 = v) ∧
    ((a + k) % 4096 = (s.pc.toNat + 1) % 4096 → (s.setMem (s.mem.writeList a bs)).fetchWord.extractLsb' 0 8 = v) := by
  constructor
  · intro high
    rw [State.fetchWord_high]
    exact Memory.read_writeList_of_mod_eq s.mem hl hk high
  · intro low
    rw [State.fetchWord_low]
    exact Memory.read_writeList_of_mod_eq s.mem hl hk low

theorem State.getElem?_regsUpTo (s : State) {x k : Nibble} (h : k.toNat ≤ x.toNat) :
    (s.regsUpTo x)[k.toNat]? = some (s.readV k) := by
  rw [List.getElem?_eq_getElem (by simpa [Nat.lt_succ_iff] using h), State.getElem_regsUpTo, BitVec.ofNat_toNat,
    BitVec.setWidth_eq]

theorem State.length_regsUpTo_le (s : State) (x : Nibble) : (s.regsUpTo x).length ≤ 4096 := by
  have := x.isLt
  rw [State.length_regsUpTo]
  omega

/-- The digits of R133 as numbers: each fits in its byte. -/
theorem map_toNat_decimalDigits (a : Byte) :
    (decimalDigits a).map BitVec.toNat = [a.toNat / 100, a.toNat / 10 % 10, a.toNat % 10] := by
  have := a.isLt
  simp only [decimalDigits, List.map_cons, List.map_nil, BitVec.toNat_ofNat, List.cons.injEq, and_true]
  omega

/-- A byte that is one of the three digits as a number is that digit as stored. -/
theorem getElem?_decimalDigits {a d : Byte} {k : Nat}
    (h : [a.toNat / 100, a.toNat / 10 % 10, a.toNat % 10][k]? = some d.toNat) : (decimalDigits a)[k]? = some d := by
  rw [← map_toNat_decimalDigits, List.getElem?_map, Option.map_eq_some_iff] at h
  obtain ⟨digit, at_k, same⟩ := h
  rw [at_k, BitVec.eq_of_toNat_eq same]

end Sys2Proof.Machine

namespace Sys2Proof.Proofs

open Sys2Proof.Machine

/-- Settles O44: the fetch keeps the invariant, and so does every instruction. -/
theorem stepKeepsTheInvariant : Obligations.StepKeepsTheInvariant := fun s t hs h => by
  rw [step_eq] at h
  exact exec_keeps_inv (State.inv_fetched hs) h

/-- Settles O33: a read after one write, and a read 4096 higher. -/
theorem byteWrittenIsByteRead : Obligations.ByteWrittenIsByteRead := fun m a b v =>
  ⟨by simp only [Memory.read_write, eq_comm], Memory.read_eq_of_mod_eq m (Nat.add_mod_right b 4096)⟩

/-- Settles O34: both instructions store a list of bytes from `I` on. -/
theorem storeIsSeenByTheNextFetch : Obligations.StoreIsSeenByTheNextFetch := fun x s =>
  ⟨⟨_, rfl, fun _ hk =>
      State.fetchWord_after_writeList s (State.length_regsUpTo_le s x) (State.getElem?_regsUpTo s hk)⟩,
    ⟨_, rfl, fun _ _ digit =>
      State.fetchWord_after_writeList s (bs := decimalDigits (s.readV x)) (by simp [decimalDigits])
        (getElem?_decimalDigits digit)⟩⟩

end Sys2Proof.Proofs
end

section
/-! PROOFS. Encoding (30_encoding.md). First the map itself: no word selects two rows of R64, and no row selects a word
of the list R66. Then the decoder: every word is the word of the well-formed instruction it decodes to, so by the laws
of PerInstr it selects that instruction's row or is undefined. The obligations are then read off these. -/

namespace Sys2Proof

/-! ### The rows of the map (30_encoding.md R64) -/

theorem OpcodeRow.selects_iff {r : OpcodeRow} {w : Word} : r.selects w = true ↔ w &&& r.mask = r.pattern := beq_iff_eq

/-- No word selects both rows. -/
def OpcodeRow.Disjoint (r r' : OpcodeRow) : Prop := ∀ w, ¬ (r.selects w = true ∧ r'.selects w = true)

/-- A word of both rows has the bits of both patterns where both masks compare. -/
theorem OpcodeRow.disjoint_of_patterns {r r' : OpcodeRow} (h : r.pattern &&& r'.mask ≠ r'.pattern &&& r.mask) :
    r.Disjoint r' := by
  rintro w ⟨hr, hr'⟩
  rw [OpcodeRow.selects_iff] at hr hr'
  apply h
  rw [← hr, ← hr', BitVec.and_assoc, BitVec.and_assoc, BitVec.and_comm r.mask]

theorem opcodeRows_pairwise_disjoint : opcodeRows.Pairwise OpcodeRow.Disjoint :=
  have patterns : opcodeRows.Pairwise fun r r' => r.pattern &&& r'.mask ≠ r'.pattern &&& r.mask := by decide
  patterns.imp OpcodeRow.disjoint_of_patterns

/-- At most one row is selected. -/
theorem OpcodeRow.eq_of_selects {r r' : OpcodeRow} (hr : r ∈ opcodeRows) (hr' : r' ∈ opcodeRows) {w : Word}
    (h : r.selects w = true) (h' : r'.selects w = true) : r = r' := by
  by_contra ne
  have : Std.Symm OpcodeRow.Disjoint := ⟨fun _ _ disjoint v both => disjoint v both.symm⟩
  exact opcodeRows_pairwise_disjoint.forall hr hr' ne w ⟨h, h'⟩

/-! ### No row selects an undefined word (30_encoding.md R66) -/

/-- The list R66 reads of a word the fields its family compares, and no others. -/
theorem undefinedWord_congr {w p : Word} (op : opField w = opField p) (whole : opField p = 0x0 → w = p)
    (n : opField p ∈ [0x5, 0x8, 0x9] → nField w = nField p) (kk : opField p ∈ [0xE, 0xF] → kkField w = kkField p) :
    undefinedWord w = undefinedWord p := by
  unfold undefinedWord
  rw [op]
  split
  case h_1 family => rw [whole family]
  case h_2 family | h_3 family | h_4 family => rw [n (by simp [family])]
  case h_5 family | h_6 family => rw [kk (by simp [family])]
  case h_7 => rfl

/-- Each row's mask covers what `undefinedWord_congr` asks for, and its pattern is a defined word. -/
theorem opcodeRows_masks : ∀ r ∈ opcodeRows,
    opField r.mask = 0xF ∧ (opField r.pattern = 0x0 → r.mask = 0xFFFF) ∧
      (opField r.pattern ∈ [0x5, 0x8, 0x9] → nField r.mask = 0xF) ∧
      (opField r.pattern ∈ [0xE, 0xF] → kkField r.mask = 0xFF) ∧ undefinedWord r.pattern = false := by
  decide

theorem undefinedWord_of_selects {r : OpcodeRow} (hr : r ∈ opcodeRows) {w : Word} (h : r.selects w = true) :
    undefinedWord w = false := by
  obtain ⟨op, whole, n, kk, defined⟩ := opcodeRows_masks r hr
  -- A field that the mask covers is the pattern's field.
  have covered (start len : Nat) (hm : r.mask.extractLsb' start len = BitVec.allOnes len) :
      w.extractLsb' start len = r.pattern.extractLsb' start len := by
    rw [← OpcodeRow.selects_iff.mp h, BitVec.extractLsb'_and, hm, BitVec.and_allOnes]
  rw [← defined]
  refine undefinedWord_congr (covered 12 4 op) (fun family => ?_) (fun family => covered 0 4 (n family))
    (fun family => covered 0 8 (kk family))
  have all := covered 0 16 (by rw [whole family]; rfl)
  rwa [BitVec.extractLsb'_eq_self, BitVec.extractLsb'_eq_self] at all

/-! ### Every word is the word of the instruction it decodes to (30_encoding.md R65) -/

theorem wordA_of_op {w : Word} {op : Nibble} (h : opField w = op) : wordA op (nnnField w) = w :=
  h ▸ wordA_fields w

theorem wordXK_of_op {w : Word} {op : Nibble} (h : opField w = op) : wordXK op (xField w) (kkField w) = w :=
  h ▸ wordXK_fields w

theorem wordXK_of_op_kk {w : Word} {op : Nibble} {kk : Byte} (h : opField w = op) (hk : kkField w = kk) :
    wordXK op (xField w) kk = w := hk ▸ wordXK_of_op h

theorem wordXYN_of_op {w : Word} {op : Nibble} (h : opField w = op) :
    wordXYN op (xField w) (yField w) (nField w) = w := h ▸ wordXYN_fields w

theorem wordXYN_of_op_n {w : Word} {op n : Nibble} (h : opField w = op) (hn : nField w = n) :
    wordXYN op (xField w) (yField w) n = w := hn ▸ wordXYN_of_op h

/-- The decoder loses no bit: family by family, the fields it reads and those it compares make up the word, and what it
leaves undefined is on the list of R66. -/
theorem wellFormed_and_encode_decodeWord (w : Word) : (decodeWord w).wellFormed = true ∧ encode (decodeWord w) = w := by
  unfold decodeWord
  split
  case h_1 op =>
    split
    next cls => exact ⟨rfl, cls.symm⟩
    next cls =>
      split
      next ret => exact ⟨rfl, ret.symm⟩
      next ret => exact ⟨by simp [Instr.wellFormed, undefinedWord, op, cls, ret], rfl⟩
  case h_2 op | h_3 op | h_11 op | h_12 op => exact ⟨rfl, wordA_of_op op⟩
  case h_4 op | h_5 op | h_7 op | h_8 op | h_13 op => exact ⟨rfl, wordXK_of_op op⟩
  case h_14 op => exact ⟨rfl, wordXYN_of_op op⟩
  case h_6 op | h_10 op =>
    split
    next n => exact ⟨rfl, wordXYN_of_op_n op n⟩
    next n => exact ⟨by simp [Instr.wellFormed, undefinedWord, op, n], rfl⟩
  case h_9 op =>
    split
    case h_10 =>
      refine ⟨?_, rfl⟩
      simp only [Instr.wellFormed, undefinedWord, op]
      generalize nField w = n at *
      revert n
      decide
    all_goals next n => exact ⟨rfl, wordXYN_of_op_n op n⟩
  case h_15 op =>
    split
    case h_3 not9E notA1 => exact ⟨by simpa [Instr.wellFormed, undefinedWord, op] using ⟨not9E, notA1⟩, rfl⟩
    all_goals next kk => exact ⟨rfl, wordXK_of_op_kk op kk⟩
  case h_16 =>
    have op : opField w = 0xF#4 := by
      generalize opField w = op at *
      revert op
      decide
    split
    case h_10 => exact ⟨by simp_all [Instr.wellFormed, undefinedWord], rfl⟩
    all_goals next kk => exact ⟨rfl, wordXK_of_op_kk op kk⟩

/-! ### The decoder reads the map (30_encoding.md R64 to R66) -/

open Laws.OwnRow in
theorem selects_own_row : ∀ i : Instr, Statement i
  | .cls => cls
  | .ret => ret
  | .jp _ => jp _
  | .call _ => call _
  | .seImm _ _ => seImm _ _
  | .sneImm _ _ => sneImm _ _
  | .seReg _ _ => seReg _ _
  | .ldImm _ _ => ldImm _ _
  | .addImm _ _ => addImm _ _
  | .ldReg _ _ => ldReg _ _
  | .orReg _ _ => orReg _ _
  | .andReg _ _ => andReg _ _
  | .xorReg _ _ => xorReg _ _
  | .addReg _ _ => addReg _ _
  | .subReg _ _ => subReg _ _
  | .shr _ _ => shr _ _
  | .subnReg _ _ => subnReg _ _
  | .shl _ _ => shl _ _
  | .sneReg _ _ => sneReg _ _
  | .ldI _ => ldI _
  | .jpV0 _ => jpV0 _
  | .rnd _ _ => rnd _ _
  | .drw _ _ _ => drw _ _ _
  | .skp _ => skp _
  | .sknp _ => sknp _
  | .ldVxDt _ => ldVxDt _
  | .ldVxK _ => ldVxK _
  | .ldDtVx _ => ldDtVx _
  | .ldStVx _ => ldStVx _
  | .addI _ => addI _
  | .ldF _ => ldF _
  | .ldB _ => ldB _
  | .ldMemVx _ => ldMemVx _
  | .ldVxMem _ => ldVxMem _
  | .nop _ => nop _

/-- A word selects a row, which builds what it decodes to, or it is undefined and decodes to the no-op. -/
theorem decodeWord_cases (w : Word) :
    (∃ r, r ∈ opcodeRows ∧ r.selects w = true ∧ r.build w = decodeWord w) ∨
      (decodeWord w = .nop w ∧ undefinedWord w = true) := by
  obtain ⟨wf, word⟩ := wellFormed_and_encode_decodeWord w
  have own := selects_own_row (decodeWord w) wf
  rwa [word] at own

theorem decodeWord_of_selects {r : OpcodeRow} (hr : r ∈ opcodeRows) {w : Word} (h : r.selects w = true) :
    decodeWord w = r.build w := by
  obtain ⟨r', hr', h', build⟩ | ⟨_, undefined⟩ := decodeWord_cases w
  · rw [OpcodeRow.eq_of_selects hr hr' h h', build]
  · exact absurd (undefinedWord_of_selects hr h) (by simp [undefined])

theorem decodeWord_of_undefinedWord {w : Word} (h : undefinedWord w = true) : decodeWord w = .nop w := by
  obtain ⟨r, hr, selected, _⟩ | ⟨nop, _⟩ := decodeWord_cases w
  · exact absurd (undefinedWord_of_selects hr selected) (by simp [h])
  · exact nop

theorem undefinedWord_of_decodeWord_eq_nop {w : Word} (h : decodeWord w = .nop w) : undefinedWord w = true :=
  (congrArg Instr.wellFormed h).symm.trans (wellFormed_and_encode_decodeWord w).1

theorem decodeWord_encode {i : Instr} (h : i.wellFormed = true) : decodeWord (encode i) = i := by
  obtain ⟨r, hr, selected, build⟩ | ⟨nop, undefined⟩ := selects_own_row i h
  · rw [decodeWord_of_selects hr selected, build]
  · rw [decodeWord_of_undefinedWord undefined, ← nop]

end Sys2Proof

namespace Sys2Proof.Proofs

/-- Settles O1: the word of an instruction selects the instruction's own row, and so decodes to it; its bytes are put
together to the same word. -/
theorem decodeOfEncodeIsTheInstruction : Obligations.DecodeOfEncodeIsTheInstruction := fun i h =>
  ⟨decodeWord_encode h, fun rest => by rw [decodeBytes_bytesOfWord, decodeWord_encode h]⟩

/-- Settles O2: family by family, the decoder's fields make up the word. -/
theorem encodeOfDecodeIsTheWord : Obligations.EncodeOfDecodeIsTheWord := wellFormed_and_encode_decodeWord

/-- Settles O3: the selected row is the only one; a word that selects none has only the no-op left. -/
theorem decoderFollowsOpcodeMap : Obligations.DecoderFollowsOpcodeMap := by
  refine fun w => ⟨fun r hr => decodeWord_of_selects hr, fun unselected => ?_⟩
  obtain ⟨r, hr, selected, _⟩ | ⟨nop, _⟩ := decodeWord_cases w
  · exact absurd (unselected r hr) (by simp [selected])
  · exact nop

/-- Settles O4: any two patterns differ in a bit that both masks compare. -/
theorem opcodeMapRowsAreDisjoint : Obligations.OpcodeMapRowsAreDisjoint := ⟨rfl, opcodeRows_pairwise_disjoint⟩

/-- Settles O5: an undefined word selects no row, and a no-op decoded from a word is well-formed. -/
theorem nopWordsAreTheUndefinedWords : Obligations.NopWordsAreTheUndefinedWords := fun _ =>
  ⟨undefinedWord_of_decodeWord_eq_nop, decodeWord_of_undefinedWord⟩

/-- Settles O6: twenty fixed words. -/
theorem sampleWordsDecode : Obligations.SampleWordsDecode := by
  unfold Obligations.SampleWordsDecode
  decide

end Sys2Proof.Proofs
end

section
/-! PROOFS. The cycle (40_cycle.md). Two facts carry all three obligations: a step runs what the fetched word decodes
to, and a word placed at `pc` is the word fetched. -/

namespace Sys2Proof

/-- Two bytes decode to what their word decodes to, with no byte left (30_encoding.md R65). -/
theorem decodeBytes_pair_eq_ok_iff {hi lo : Byte} {i : Instr} :
    decodeBytes [hi, lo] = .ok (i, []) ↔ decodeWord (wordOfBytes hi lo) = i := by
  simp [decodeBytes]

end Sys2Proof

namespace Sys2Proof.Machine

theorem step_of_decodeWord {s : State} {i : Instr} (h : decodeWord s.fetchWord = i) : step s = exec i s.fetched := by
  rw [step_eq, h]

/-- A word placed at `pc` is the word fetched (20_memory.md R43), also where `pc + 1` wraps to address 0 (R42). -/
@[simp] theorem State.fetchWord_placeWord (s : State) (w : Word) : (s.placeWord w).fetchWord = w := by
  have two_bytes : (bytesOfWord w).length ≤ 4096 := by simp [bytesOfWord]
  have high : (s.placeWord w).fetchWord.extractLsb' 8 8 = w.extractLsb' 8 8 :=
    (s.fetchWord_after_writeList (a := s.pc.toNat) (k := 0) two_bytes rfl).1 rfl
  have low : (s.placeWord w).fetchWord.extractLsb' 0 8 = w.extractLsb' 0 8 :=
    (s.fetchWord_after_writeList (a := s.pc.toNat) (k := 1) two_bytes rfl).2 rfl
  rw [← wordOfBytes_bytesOfWord (s.placeWord w).fetchWord, high, low, wordOfBytes_bytesOfWord]

/-- The no-op changes nothing, whatever its word (40_cycle.md R83). -/
@[simp] theorem exec_nop (w : Word) (s : State) : exec (.nop w) s = .next s := rfl

end Sys2Proof.Machine

namespace Sys2Proof.Proofs

open Sys2Proof.Machine

/-- Settles O9: the placed word is the one fetched, and it decodes to the instruction. -/
theorem placedInstructionIsFetchedAndRun : Obligations.PlacedInstructionIsFetchedAndRun := fun s i wf =>
  ⟨s.fetchWord_placeWord (encode i), step_of_decodeWord (by rw [State.fetchWord_placeWord, decodeWord_encode wf])⟩

/-- Settles O10: an undefined word decodes to the no-op, so the step leaves what the fetch left. -/
theorem undefinedWordOnlyAdvancesPc : Obligations.UndefinedWordOnlyAdvancesPc :=
  ⟨exec_nop, fun s undefined =>
    ⟨s.fetched, step_of_decodeWord (decodeWord_of_undefinedWord undefined), s.fetched_pc, s.fetched_report,
      keepsAllBut_fetched s⟩⟩

/-- Settles O7: the state the instruction runs on is the fetched one, and its word is that of the two bytes. -/
theorem stepRunsTheDecodedInstruction : Obligations.StepRunsTheDecodedInstruction := fun s _ decoded =>
  ⟨s.fetched, step_of_decodeWord (decodeBytes_pair_eq_ok_iff.mp decoded), s.fetched_pc, s.fetched_opcode,
    s.fetched_report, keepsAllBut_fetched s⟩

end Sys2Proof.Proofs
end

section
/-! PROOFS. Control transfer (41_control.md). What the skip does to `pc` under an equality test, and what RET does to a
state whose top entry is known; the obligations are then read off the outcomes of each instruction. -/

namespace Sys2Proof.Machine

/-! ### The skips of SE and SNE (R93 to R96, R98) -/

theorem State.skipIf_beq_pc (s : State) (a b : Byte) :
    (s.skipIf (a == b)).pc = if a = b then s.pc + 2 else s.pc := by
  simp [State.skipIf_eq]

theorem State.skipIf_bne_pc (s : State) (a b : Byte) :
    (s.skipIf (a != b)).pc = if a = b then s.pc else s.pc + 2 := by
  simp [State.skipIf_eq]

/-! ### The return (R90) -/

/-- RET goes to the entry in the slot below `sp`, and makes that slot the first free one. -/
theorem exec_ret_of_entry {u : State} {n : Fin 17} {w : Word} (above : u.sp.val = n.val + 1)
    (entry : u.stack[n.val]? = some w) : exec .ret u = .next ((u.setSp n).setPc w) := by
  have active : 0 < u.sp.val := by omega
  have below : u.sp.val - 1 = n.val := by omega
  have top : u.top active = w := by
    have slot := u.getElem?_stack_eq_top active
    rw [below] at slot
    exact Option.some.inj (slot.symm.trans entry)
  have dropped : u.drop = u.setSp n := congrArg u.setSp (Fin.ext below)
  rw [← top, ← dropped]
  exact execRet_active active

end Sys2Proof.Machine

namespace Sys2Proof.Proofs

open Sys2Proof.Machine

/-- Settles O14: the two outcomes of CALL, split at a full stack. -/
theorem callPushesOrIsIgnored : Obligations.CallPushesOrIsIgnored := by
  intro nnn s
  by_cases full : s.sp.val = 16
  · exact ⟨_, execCall_full nnn (by omega), (if_pos full).mpr ⟨rfl, keepsAllBut_setReport s _⟩⟩
  · have room : s.sp.val < 16 := by omega
    have frame : KeepsAllBut [.pc, .stack, .sp] s ((s.push s.pc room).setPc (zext12 nnn)) :=
      ((keepsAllBut_push s s.pc room).trans (keepsAllBut_setPc _ _)).mono (by simp)
    exact ⟨_, execCall_room nnn room, (if_neg full).mpr ⟨rfl, s.getElem?_push_stack_sp s.pc room,
      fun _ hk => s.getElem?_push_stack_ne s.pc room hk, toNat_zext12 nnn, frame⟩⟩

/-- Settles O15: the two outcomes of RET, split at an empty stack. -/
theorem returnPopsOrIsIgnored : Obligations.ReturnPopsOrIsIgnored := by
  intro s
  by_cases empty : s.sp.val = 0
  · exact ⟨_, execRet_empty (by omega), (if_pos empty).mpr ⟨rfl, keepsAllBut_setReport s _⟩⟩
  · have active : 0 < s.sp.val := by omega
    have frame : KeepsAllBut [.pc, .sp] s (s.drop.setPc (s.top active)) :=
      ((keepsAllBut_setSp s _).trans (keepsAllBut_setPc _ _)).mono (by simp)
    exact ⟨_, execRet_active active, (if_neg empty).mpr ⟨Nat.sub_add_cancel active, s.getElem?_stack_eq_top active,
      frame⟩⟩

/-- Settles O16: the entry that CALL pushed is the one below `sp` when RET runs. -/
theorem returnComesBackAfterTheCall : Obligations.ReturnComesBackAfterTheCall := by
  intro nnn s t u room called usp ustack
  obtain ⟨_, rfl⟩ | ⟨full, _⟩ := exec_call_cases called
  · have entry : u.stack[s.sp.val]? = some s.pc := by
      rw [ustack]; exact s.getElem?_push_stack_sp s.pc room
    exact ⟨_, exec_ret_of_entry (congrArg Fin.val usp) entry, rfl, rfl⟩
  · exact absurd room full

/-- Settles O12: the target fits 16 bits, and only `pc` is set. -/
theorem jumpGoesToTarget : Obligations.JumpGoesToTarget := fun nnn s =>
  ⟨_, rfl, toNat_zext12 nnn, keepsAllBut_setPc s _⟩

/-- Settles O13: the sum does not wrap, and only `pc` is set. -/
theorem indexedJumpAddsV0 : Obligations.IndexedJumpAddsV0 := fun nnn s =>
  ⟨_, rfl, toNat_zext8_add_zext12 (s.readV 0) nnn, keepsAllBut_setPc s _⟩

/-- Settles O18: both instructions are the skip, under the test and under its negation. -/
theorem skipsComparingAnImmediate : Obligations.SkipsComparingAnImmediate := fun x kk s =>
  ⟨⟨_, rfl, keepsAllBut_skipIf s _, s.skipIf_beq_pc (s.readV x) kk⟩,
    ⟨_, rfl, keepsAllBut_skipIf s _, s.skipIf_bne_pc (s.readV x) kk⟩⟩

/-- Settles O19: the same two skips, with a register as the second operand. -/
theorem skipsComparingRegisters : Obligations.SkipsComparingRegisters := fun x y s =>
  ⟨⟨_, rfl, keepsAllBut_skipIf s _, s.skipIf_beq_pc (s.readV x) (s.readV y)⟩,
    ⟨_, rfl, keepsAllBut_skipIf s _, s.skipIf_bne_pc (s.readV x) (s.readV y)⟩⟩

end Sys2Proof.Proofs
end

section
/-! PROOFS. Registers (42_alu.md). First which registers the two ways of writing a result keep, then each result and
each flag as a number. The five instructions that write a flag are one lemma over the flag and the result they write;
the obligations are then read off. -/

namespace Sys2Proof.Machine

/-! ### What a result, and a flag and a result (R124), leave alone -/

theorem regsKeptBut_writeV (s : State) (x : Nibble) (b : Byte) : RegsKeptBut [x] s (s.writeV x b) := fun _ hr =>
  s.readV_writeV_ne b (List.ne_of_not_mem_cons hr)

theorem regsKeptBut_writeFlagThenResult (s : State) (x : Nibble) (f r : Byte) :
    RegsKeptBut [x, vF] s (s.writeFlagThenResult x f r) := fun k hk => by
  obtain ⟨hx, hF⟩ : k ≠ x ∧ k ≠ vF := by simpa using hk
  exact s.readV_writeFlagThenResult_other f r hx hF

/-- An instruction that writes flag `f` and then result `r`: the result stands in its register, VF included, and the
flag in VF where that is another. `value` reads the result as a number. -/
theorem exec_flag_and_result {i : Instr} {s : State} {x : Nibble} {f r : Byte} {α : Type} (value : Byte → α) {a : α}
    {n : Nat} (writes : exec i s = .next (s.writeFlagThenResult x f r)) (result : value r = a) (flag : f.toNat = n) :
    ∃ t, exec i s = .next t ∧ RegsKeptBut [x, vF] s t ∧ KeepsAllBut [.v] s t ∧ value (t.readV x) = a ∧
      (x ≠ vF → (t.readV vF).toNat = n) := by
  refine ⟨_, writes, regsKeptBut_writeFlagThenResult s x f r, keepsAllBut_writeFlagThenResult s x f r, ?_, fun hx => ?_⟩
  · rw [State.readV_writeFlagThenResult_dest, result]
  · rw [State.readV_writeFlagThenResult_vF s f r hx, flag]

/-! ### The results as numbers -/

/-- The intermediate sum of R116 does not wrap. -/
theorem toNat_sum16 (a b : Byte) : (sum16 a b).toNat = a.toNat + b.toNat := by
  have := a.isLt
  have := b.isLt
  simp only [sum16, BitVec.toNat_add, BitVec.toNat_setWidth]
  omega

theorem toNat_setWidth_sum16 (a b : Byte) : ((sum16 a b).setWidth 8).toNat = (a.toNat + b.toNat) % 256 := by
  rw [BitVec.toNat_setWidth, toNat_sum16]

/-- A difference of bytes, taken over the integers. -/
theorem intCast_toNat_sub (a b : Byte) : ((a - b).toNat : Int) = (a.toNat - b.toNat : Int) % 256 := by
  have := b.isLt
  rw [BitVec.toNat_sub]
  omega

theorem toNat_ushiftRight_one (a : Byte) : (a >>> 1).toNat = a.toNat / 2 := by
  rw [BitVec.toNat_ushiftRight, Nat.shiftRight_one]

theorem toNat_shiftLeft_one (a : Byte) : (a <<< 1).toNat = 2 * a.toNat % 256 := by
  rw [BitVec.toNat_shiftLeft, Nat.shiftLeft_eq, Nat.mul_comm]

/-! ### The flags as numbers (R123) -/

theorem toNat_flagOf (c : Bool) : (flagOf c).toNat = c.toNat := by
  cases c <;> rfl

theorem toNat_flagOf_decide (p : Prop) [Decidable p] : (flagOf (decide p)).toNat = if p then 1 else 0 := by
  by_cases h : p
  · rw [decide_eq_true h, if_pos h]; rfl
  · rw [decide_eq_false h, if_neg h]; rfl

theorem toNat_carryFlag (a b : Byte) : (carryFlag a b).toNat = if a.toNat + b.toNat > 255 then 1 else 0 := by
  rw [carryFlag, toNat_sum16, toNat_flagOf_decide]

theorem toNat_greaterFlag (a b : Byte) : (greaterFlag a b).toNat = if a.toNat > b.toNat then 1 else 0 :=
  toNat_flagOf_decide _

/-- A flag that is bit `k` of a byte. -/
theorem toNat_flagOf_getLsbD (a : Byte) (k : Nat) : (flagOf (a.getLsbD k)).toNat = a.toNat / 2 ^ k % 2 := by
  rw [toNat_flagOf, BitVec.getLsbD, Nat.toNat_testBit]

theorem toNat_lowBitFlag (a : Byte) : (lowBitFlag a).toNat = a.toNat % 2 := by
  rw [lowBitFlag, toNat_flagOf_getLsbD, Nat.pow_zero, Nat.div_one]

theorem toNat_highBitFlag (a : Byte) : (highBitFlag a).toNat = a.toNat / 128 := by
  have := a.isLt
  rw [highBitFlag, toNat_flagOf_getLsbD]
  omega

end Sys2Proof.Machine

namespace Sys2Proof.Proofs

open Sys2Proof.Machine

/-- Settles O20: each of the three writes one register. -/
theorem loadsAndAddImmediate : Obligations.LoadsAndAddImmediate := fun x _ _ s =>
  ⟨⟨_, rfl, s.readV_writeV_same x _, regsKeptBut_writeV s x _, keepsAllBut_writeV s x _⟩,
    ⟨_, rfl, by rw [State.readV_writeV_same, BitVec.toNat_add], regsKeptBut_writeV s x _, keepsAllBut_writeV s x _⟩,
    ⟨_, rfl, s.readV_writeV_same x _, regsKeptBut_writeV s x _, keepsAllBut_writeV s x _⟩⟩

/-- Settles O21: one register is written, and its bits are those of the word operation. -/
theorem logicActsBitByBit : Obligations.LogicActsBitByBit := fun x _ s =>
  ⟨⟨_, rfl, regsKeptBut_writeV s x _, keepsAllBut_writeV s x _, fun _ => by
      rw [State.readV_writeV_same, BitVec.getLsbD_or]⟩,
    ⟨_, rfl, regsKeptBut_writeV s x _, keepsAllBut_writeV s x _, fun _ => by
      rw [State.readV_writeV_same, BitVec.getLsbD_and]⟩,
    ⟨_, rfl, regsKeptBut_writeV s x _, keepsAllBut_writeV s x _, fun _ => by
      rw [State.readV_writeV_same, BitVec.getLsbD_xor]⟩⟩

/-- Settles O22: the sum and the carry, as numbers of the operands before. -/
theorem addWritesSumAndCarry : Obligations.AddWritesSumAndCarry := fun _ _ _ =>
  exec_flag_and_result BitVec.toNat rfl (toNat_setWidth_sum16 _ _) (toNat_carryFlag _ _)

/-- Settles O23: SUBN is SUB with the operands exchanged. -/
theorem subtractionsWriteDifferenceAndFlag : Obligations.SubtractionsWriteDifferenceAndFlag := fun _ _ _ =>
  ⟨exec_flag_and_result (fun b => (b.toNat : Int)) rfl (intCast_toNat_sub _ _) (toNat_greaterFlag _ _),
    exec_flag_and_result (fun b => (b.toNat : Int)) rfl (intCast_toNat_sub _ _) (toNat_greaterFlag _ _)⟩

/-- Settles O24: the `y` field stands in neither meaning. -/
theorem shiftsMoveOneBitOut : Obligations.ShiftsMoveOneBitOut := fun _ _ _ =>
  ⟨exec_flag_and_result BitVec.toNat rfl (toNat_ushiftRight_one _) (toNat_lowBitFlag _),
    exec_flag_and_result BitVec.toNat rfl (toNat_shiftLeft_one _) (toNat_highBitFlag _)⟩

/-- Settles O26: one draw and one register write; a bit masked out is 0 whatever was drawn. -/
theorem randomByteIsMasked : Obligations.RandomByteIsMasked := fun x kk s => by
  have dest := s.advanceRng.readV_writeV_same x (s.randomByte &&& kk)
  refine ⟨_, rfl, dest, rfl, fun k masked => ?_, regsKeptBut_writeV s.advanceRng x _,
    exec_keepsAllBut_writesFields (i := .rnd x kk) rfl⟩
  rw [dest, BitVec.getLsbD_and, masked, Bool.and_false]

end Sys2Proof.Proofs
end

section
/-! PROOFS. The index register and memory (43_index_memory.md). First the values of `I` as numbers, then what a stored
digit and a loaded register read as; the round trip through memory is the block store followed by the block load. -/

namespace Sys2Proof.Machine

/-! ### The values of `I` -/

theorem toNat_zext8 (b : Byte) : (zext8 b).toNat = b.toNat :=
  BitVec.toNat_setWidth_of_le (by decide)

/-- The glyph address is taken on the whole byte, and does not wrap (R132). -/
theorem State.toNat_glyphAddr (s : State) (x : Nibble) : (s.glyphAddr x).toNat = 0x50 + 5 * (s.readV x).toNat := by
  have fits := (s.readV x).isLt
  rw [State.glyphAddr, BitVec.toNat_add, BitVec.toNat_mul, toNat_zext8]
  simp only [Config.fontBase, BitVec.reduceToNat, BitVec.toNat_ofNat]
  omega

/-! ### What was stored and loaded -/

/-- The digit stored at offset `k` is the one of R133 in that place. -/
theorem Memory.toNat_read_decimalDigits (m : Memory) (a : Nat) (b : Byte) {k d : Nat}
    (digit : [b.toNat / 100, b.toNat / 10 % 10, b.toNat % 10][k]? = some d) :
    ((m.writeList a (decimalDigits b)).read (a + k)).toNat = d := by
  rw [← map_toNat_decimalDigits, List.getElem?_map, Option.map_eq_some_iff] at digit
  obtain ⟨v, at_k, rfl⟩ := digit
  rw [Memory.read_writeList_of_mod_eq m (by simp [decimalDigits]) at_k rfl]

theorem State.readV_loadRegs_of_le (s : State) {x k : Nibble} (h : k.toNat ≤ x.toNat) :
    (s.loadRegs x).readV k = s.mem.read (s.i.toNat + k.toNat) := by
  rw [State.readV_loadRegs, if_pos h]

theorem State.readV_loadRegs_of_lt (s : State) {x k : Nibble} (h : x.toNat < k.toNat) :
    (s.loadRegs x).readV k = s.readV k := by
  rw [State.readV_loadRegs, if_neg (Nat.not_le.mpr h)]

end Sys2Proof.Machine

namespace Sys2Proof.Proofs

open Sys2Proof.Machine

/-- Settles O27: neither value wraps, and only `I` is set. -/
theorem indexLoads : Obligations.IndexLoads := fun nnn x s =>
  ⟨⟨_, rfl, toNat_zext12 nnn, keepsAllBut_setI s _⟩, ⟨_, rfl, s.toNat_glyphAddr x, keepsAllBut_setI s _⟩⟩

/-- Settles O28: the sum of words, and only `I` is set. -/
theorem indexAddWraps : Obligations.IndexAddWraps := fun x s =>
  ⟨_, rfl, by rw [State.setI_i, BitVec.toNat_add, toNat_zext8], keepsAllBut_setI s _⟩

/-- Settles O29: a list of three bytes is stored from `I` on, and each is read back at its own offset. -/
theorem decimalDigitsAreStored : Obligations.DecimalDigitsAreStored := fun x s => by
  have digit := @Memory.toNat_read_decimalDigits s.mem s.i.toNat (s.readV x)
  exact ⟨_, rfl, digit (k := 0) rfl, digit (k := 1) rfl, digit (k := 2) rfl,
    exec_bytesKeptOutside (i := .ldB x) rfl, keepsAllBut_setMem s _⟩

/-- Settles O30: the registers up to `x` are the list of bytes stored from `I` on. -/
theorem blockStoreWritesRegisters : Obligations.BlockStoreWritesRegisters := fun x s =>
  ⟨_, rfl, fun _ hk =>
      Memory.read_writeList_of_mod_eq s.mem (s.length_regsUpTo_le x) (s.getElem?_regsUpTo hk) rfl,
    exec_bytesKeptOutside (i := .ldMemVx x) rfl, keepsAllBut_setMem s _⟩

/-- Settles O31: every register after the block load, up to `x` and above it. -/
theorem blockLoadReadsRegisters : Obligations.BlockLoadReadsRegisters := fun x s =>
  ⟨_, rfl, fun _ => s.readV_loadRegs_of_le, fun _ => s.readV_loadRegs_of_lt, keepsAllBut_loadRegs s x⟩

/-- Settles O32: each register is loaded from the address that the store left it at. -/
theorem blockLoadUndoesBlockStore : Obligations.BlockLoadUndoesBlockStore := by
  intro x s t u stored same_mem same_i
  obtain ⟨t', stored', saved, -, -⟩ := blockStoreWritesRegisters x s
  obtain rfl : t' = t := Host.Outcome.next.inj (stored'.symm.trans stored)
  obtain ⟨r, loaded, restored, -, -⟩ := blockLoadReadsRegisters x u
  refine ⟨r, loaded, fun k hk => ?_⟩
  rw [restored k hk, same_mem, same_i, saved k hk]

end Sys2Proof.Proofs
end

section
/-! PROOFS. The display (44_display.md). First what DRW draws and the flag it writes, in the terms of a sprite bit at a
screen position; two draws are then two toggles by the same sprite bits. -/

namespace Sys2Proof.Machine

theorem flagOf_eq_one_iff (c : Bool) : flagOf c = 1 ↔ c = true := by
  cases c <;> decide

/-! ### What DRW draws (R141, R143) -/

/-- Each pixel of the screen is toggled by its sprite bit. -/
theorem State.get_drawn (s : State) (x y n : Nibble) {row col : Nat} (hr : row < 32) (hc : col < 64) :
    (s.drawn x y n).1.get row col = (s.fb.get row col ^^ s.spriteBitAt x y n row col) :=
  (drawSprite_spec s.mem (s.addrI 0) (s.spriteCol x) (s.spriteRow y) n.toNat s.fb).1 row col hr hc

/-- The collision is that of some lit pixel with sprite bit 1. -/
theorem State.drawn_collides_iff (s : State) (x y n : Nibble) :
    (s.drawn x y n).2 = true ↔
      ∃ row col, row < 32 ∧ col < 64 ∧ s.spriteBitAt x y n row col = true ∧ s.fb.get row col = true :=
  (drawSprite_spec s.mem (s.addrI 0) (s.spriteCol x) (s.spriteRow y) n.toNat s.fb).2

/-- The sprite bits depend on memory, `I` and the two coordinates alone. -/
theorem State.spriteBitAt_congr {s t : State} {x y : Nibble} (n : Nibble) (mem : t.mem = s.mem) (i : t.i = s.i)
    (vx : t.readV x = s.readV x) (vy : t.readV y = s.readV y) : t.spriteBitAt x y n = s.spriteBitAt x y n := by
  funext row col
  rw [State.spriteBitAt, State.spriteBitAt, mem, i, vx, vy]

end Sys2Proof.Machine

namespace Sys2Proof.Proofs

open Sys2Proof.Machine

/-- Settles O36: the framebuffer is the sprite drawn, and VF the flag of its collision. -/
theorem drawTogglesTheSpritesPixels : Obligations.DrawTogglesTheSpritesPixels := fun x y n s => by
  refine ⟨_, rfl, fun _ _ => s.get_drawn x y n, ?_, ?_, regsKeptBut_writeV (s.setFb _) vF _,
    exec_keepsAllBut_writesFields (i := .drw x y n) rfl⟩
  · rw [State.readV_writeV_same]
    exact (flagOf_eq_zero_or_one _).symm
  · rw [State.readV_writeV_same, flagOf_eq_one_iff]
    exact s.drawn_collides_iff x y n

/-- Settles O37: neither draw changes the sprite's bits, so the second undoes the toggles of the first. -/
theorem drawTwiceRestoresTheScreen : Obligations.DrawTwiceRestoresTheScreen := by
  intro x y n s t hx hy first
  obtain ⟨t', first', pixels, flag, collides, regs, frame⟩ := drawTogglesTheSpritesPixels x y n s
  obtain rfl : t' = t := Host.Outcome.next.inj (first'.symm.trans first)
  obtain ⟨u, second, pixels₂, -, collides₂, -⟩ := drawTogglesTheSpritesPixels x y n t'
  have bits : t'.spriteBitAt x y n = s.spriteBitAt x y n :=
    State.spriteBitAt_congr n (frame .mem (by decide)) (frame .i (by decide))
      (regs x (by simpa using hx)) (regs y (by simpa using hy))
  rw [bits] at pixels₂ collides₂
  refine ⟨u, second, Framebuffer.ext_get fun row col hr hc => ?_, fun dark => ⟨flag.resolve_left ?_, ?_⟩⟩
  · rw [pixels₂ row col hr hc, pixels row col hr hc, Bool.xor_assoc, Bool.xor_self, Bool.xor_false]
  · rw [collides]
    rintro ⟨row, col, -, -, -, lit⟩
    exact Bool.false_ne_true ((dark row col).symm.trans lit)
  · have lit {row col} (hr : row < 32) (hc : col < 64) : t'.fb.get row col = s.spriteBitAt x y n row col := by
      rw [pixels row col hr hc, dark, Bool.false_xor]
    rw [collides₂]
    exact ⟨fun ⟨row, col, hr, hc, bit, _⟩ => ⟨row, col, hr, hc, bit⟩,
      fun ⟨row, col, hr, hc, bit⟩ => ⟨row, col, hr, hc, bit, (lit hr hc).trans bit⟩⟩

/-- Settles O35: the framebuffer is set to the dark one, and nothing else is set. -/
theorem clearDarkensEveryPixel : Obligations.ClearDarkensEveryPixel := fun s =>
  ⟨_, rfl, fun _ => Framebuffer.get_dark _ _, keepsAllBut_setFb s _⟩

end Sys2Proof.Proofs
end

section
/-! PROOFS. Keypad and timers (45_keypad_timers.md). First the key a register selects and the least key the scan finds,
then one cycle of a key wait that sees no key; the stall is that cycle again and again. -/

namespace Sys2Proof.Machine

/-! ### The key skips (R150, R151) -/

/-- The key selected is `V[x]` modulo 16 (D12). -/
theorem State.keySelect_eq_of_mod {s : State} {x k : Nibble} (h : k.toNat = (s.readV x).toNat % 16) :
    s.keySelect x = k :=
  BitVec.eq_of_toNat_eq (by rw [State.keySelect_eq, BitVec.toNat_setWidth, h])

theorem State.skipIf_pc (s : State) (c : Bool) : (s.skipIf c).pc = if c = true then s.pc + 2 else s.pc := by
  rw [State.skipIf_eq, State.setPc_pc]

theorem State.skipIf_not_pc (s : State) (c : Bool) : (s.skipIf (!c)).pc = if c = true then s.pc else s.pc + 2 := by
  cases c <;> rfl

/-! ### The key wait (R153) -/

/-- A pressed key below which none is pressed is the one the scan finds. -/
theorem State.firstKey_of_least {s : State} {k : Nibble} (down : s.keyDown k = true)
    (least : ∀ j : Nibble, j.toNat < k.toNat → s.keyDown j = false) : s.firstKey = some k.toNat := by
  rw [State.firstKey_eq_some, BitVec.ofNat_toNat, BitVec.setWidth_eq]
  refine ⟨down, k.isLt, fun j below => least _ ?_⟩
  have := k.isLt
  rw [BitVec.toNat_ofNat]
  omega

theorem exec_ldVxK_of_firstKey_eq_none (x : Nibble) {s : State} (h : s.firstKey = none) :
    exec (.ldVxK x) s = .next s.rewind := by
  refine (execLdVxK_eq x s).trans ?_
  rw [h, Option.elim_none]

/-- A key number fits in a byte. -/
theorem toNat_ofNat_keyNumber (k : Nibble) : (BitVec.ofNat 8 k.toNat).toNat = k.toNat :=
  (BitVec.toNat_ofNat ..).trans (Nat.mod_eq_of_lt (Nat.lt_of_lt_of_le k.isLt (by decide)))

/-! ### The stall (R153, R175) -/

/-- Going back undoes what the fetch did to `pc`. -/
theorem keepsAllBut_rewind_fetched (s : State) : KeepsAllBut [.opcode, .report] s s.fetched.rewind := fun f hf => by
  cases f
  case opcode | report => simp at hf
  case pc => exact s.rewind_fetched_pc
  all_goals rfl

/-- The fetch reads `pc` and memory. -/
theorem State.fetchWord_congr {s t : State} (pc : t.pc = s.pc) (mem : t.mem = s.mem) : t.fetchWord = s.fetchWord := by
  rw [State.fetchWord, pc, mem, State.fetchWord]

theorem State.fetchWord_rewind_fetched (s : State) : s.fetched.rewind.fetchWord = s.fetchWord :=
  State.fetchWord_congr s.rewind_fetched_pc rfl

/-- A cycle of a key wait that sees no key. -/
theorem step_keyWait_stalls {x : Nibble} {s : State} (decoded : decodeWord s.fetchWord = .ldVxK x)
    (up : ∀ k, s.keyDown k = false) : step s = .next s.fetched.rewind :=
  (step_of_decodeWord decoded).trans (exec_ldVxK_of_firstKey_eq_none x (s.fetched.firstKey_eq_none.mpr up))

end Sys2Proof.Machine

namespace Sys2Proof.Proofs

open Sys2Proof.Machine

/-- Settles O39: the scan finds the least pressed key, or none. -/
theorem keyWaitTakesTheLeastKey : Obligations.KeyWaitTakesTheLeastKey := by
  intro x s
  refine ⟨_, execLdVxK_eq x s, fun k down least => ?_, fun up => ?_⟩
  · rw [State.firstKey_of_least down least, Option.elim_some, State.readV_writeV_same]
    exact ⟨toNat_ofNat_keyNumber k, regsKeptBut_writeV s x _, keepsAllBut_writeV s x _⟩
  · rw [s.firstKey_eq_none.mpr up, Option.elim_none]
    exact ⟨BitVec.sub_add_cancel s.pc 2, keepsAllBut_setPc s _⟩

/-- Settles O40, by induction on the number of steps: after one, the state still waits and sees no key. -/
theorem keyWaitStallsForEver : Obligations.KeyWaitStallsForEver := by
  intro x s n decoded up
  induction n generalizing s with
  | zero => exact ⟨s, core_run_zero s, KeepsAllBut.refl _ s⟩
  | succ n ih =>
    obtain ⟨t, run, kept⟩ := ih s.fetched.rewind (by rwa [State.fetchWord_rewind_fetched]) up
    have frame : KeepsAllBut [.opcode, .report] s t :=
      ((keepsAllBut_rewind_fetched s).trans kept).mono (by simp)
    exact ⟨t, (core_run_succ n (step_keyWait_stalls decoded up)).trans run, frame⟩

/-- Settles O38: both instructions are the skip, under the selected key and under its negation. -/
theorem keySkipsTestTheSelectedKey : Obligations.KeySkipsTestTheSelectedKey := by
  intro x k s selected
  obtain rfl := State.keySelect_eq_of_mod selected
  exact ⟨⟨_, rfl, keepsAllBut_skipIf s _, s.skipIf_pc _⟩, ⟨_, rfl, keepsAllBut_skipIf s _, s.skipIf_not_pc _⟩⟩

/-- Settles O41: one register write, and two plain updates. -/
theorem timersAreReadAndLoaded : Obligations.TimersAreReadAndLoaded := fun x s =>
  ⟨⟨_, rfl, s.readV_writeV_same x _, regsKeptBut_writeV s x _, keepsAllBut_writeV s x _⟩,
    ⟨_, rfl, rfl, keepsAllBut_setDt s _⟩, ⟨_, rfl, rfl, keepsAllBut_setSt s _⟩⟩

end Sys2Proof.Proofs
end

section
/-! PROOFS. Exceptions and the host interface (60_exceptions.md). First that no instruction and no step stops, and what
a cycle reports; then the moves one by one, and histories, by induction on their moves. The obligations are then read
off. -/

namespace Sys2Proof.Machine

/-! ### Every cycle completes (R160) -/

/-- Every instruction has a meaning in every state. -/
theorem exec_completes (i : Instr) (s : State) : ∃ t, exec i s = .next t := by
  cases i
  case call nnn =>
    by_cases room : s.sp.val < 16
    · exact ⟨_, execCall_room nnn room⟩
    · exact ⟨_, execCall_full nnn room⟩
  case ret =>
    by_cases active : 0 < s.sp.val
    · exact ⟨_, execRet_active active⟩
    · exact ⟨_, execRet_empty active⟩
  case ldVxK x => exact ⟨_, execLdVxK_eq x s⟩
  all_goals exact ⟨_, rfl⟩

theorem step_completes (s : State) : ∃ t, step s = .next t := exec_completes _ s.fetched

/-! ### The report (R162) -/

/-- CALL reports a full stack and nothing else. -/
theorem exec_call_report {nnn : Imm12} {s t : State} (h : exec (.call nnn) s = .next t) :
    t.report = if s.sp.val = 16 then reportOverflow else s.report := by
  obtain ⟨room, rfl⟩ | ⟨full, rfl⟩ := exec_call_cases h
  · rw [if_neg (Nat.ne_of_lt room)]; rfl
  · rw [if_pos (by omega)]; rfl

/-- RET reports an empty stack and nothing else. -/
theorem exec_ret_report {s t : State} (h : exec .ret s = .next t) :
    t.report = if s.sp.val = 0 then reportUnderflow else s.report := by
  obtain ⟨active, rfl⟩ | ⟨empty, rfl⟩ := exec_ret_cases h
  · rw [if_neg (Nat.ne_of_gt active)]; rfl
  · rw [if_pos (by omega)]; rfl

/-! ### The keypad (R170) -/

/-- No instruction has the keypad in its row. -/
theorem key_notMem_writesFields (i : Instr) : .key ∉ writesFields i := by
  cases i <;> simp [writesFields]

theorem step_key {s t : State} (h : step s = .next t) : t.key = s.key :=
  exec_keepsAllBut_writesFields (s := s.fetched) h .key (key_notMem_writesFields _)

/-- A key written is read back, and every other key and field is kept. -/
theorem State.writeKey_spec (s : State) (k : Nibble) (b : Bool) :
    (s.writeKey k b).keyDown k = b ∧ (∀ j, j ≠ k → (s.writeKey k b).keyDown j = s.keyDown j) ∧
      KeepsAllBut [.key] s (s.writeKey k b) :=
  ⟨by rw [State.keyDown_writeKey, if_pos rfl], fun j ne => by rw [State.keyDown_writeKey, if_neg ne],
    keepsAllBut_setKey s _⟩

/-! ### The tick and the sound output (R168, R169) -/

theorem State.toNat_tick_dt (s : State) : s.tick.dt.toNat = s.dt.toNat - 1 := toNat_countDown s.dt

theorem State.toNat_tick_st (s : State) : s.tick.st.toNat = s.st.toNat - 1 := toNat_countDown s.st

theorem keepsAllBut_tick (s : State) : KeepsAllBut [.dt, .st] s s.tick :=
  (keepsAllBut_setDt s _).trans (keepsAllBut_setSt _ _)

theorem State.sound_eq_false_iff (s : State) : s.sound = false ↔ s.st.toNat = 0 := by
  simp [State.sound]

theorem State.sound_iff (s : State) : s.sound = true ↔ s.st ≠ 0 := by
  rw [← Bool.not_eq_false, State.sound_eq_false_iff, ne_eq, ← BitVec.toNat_inj]
  exact Iff.rfl

/-- A tick takes a sounding core to silence exactly from 1. -/
theorem State.tick_sound_eq_false_iff {s : State} (sounding : s.sound = true) : s.tick.sound = false ↔ s.st = 1 := by
  have positive : s.st.toNat ≠ 0 := by
    rwa [← Bool.not_eq_false, State.sound_eq_false_iff] at sounding
  rw [State.sound_eq_false_iff, State.toNat_tick_st, ← BitVec.toNat_inj, show (1 : Byte).toNat = 1 from rfl]
  omega

/-! ### One move (R176) -/

/-- An image that fits is loaded (70_reset_and_hazards.md R191). -/
theorem move_load_of_fits (font : Font) {image : List Byte} (fits : image.length ≤ 3584) (s : State) :
    move font (.load image) s = .next (s.load image) := if_pos fits

/-- Every move but a load of an oversize image answers a next state. -/
theorem move_completes (font : Font) {m : Move} (fits : ∀ image, m = .load image → image.length ≤ 3584) (s : State) :
    ∃ t, move font m s = .next t := by
  cases m with
  | load image => exact ⟨_, move_load_of_fits font (fits image rfl) s⟩
  | cycle => exact step_completes s
  | reset | tick | keySet | keyClear => exact ⟨_, rfl⟩

theorem State.inv_load {s : State} (hs : s.Inv) (image : List Byte) : (s.load image).Inv := by
  obtain ⟨wf, legal⟩ := hs
  unfold State.load
  split
  · exact ⟨Memory.wf_writeList _ image wf, legal⟩
  · exact ⟨wf, legal⟩

/-- Every move keeps the invariant. -/
theorem move_keeps_inv {font : Font} {m : Move} {s t : State} (hs : s.Inv) (h : move font m s = .next t) : t.Inv := by
  cases m with
  | reset => cases h; exact ⟨State.wf_resetWith font, by simp [State.resetMove]⟩
  | load image =>
    rw [move] at h
    split at h
    · cases h; exact State.inv_load hs image
    · cases h
  | cycle => exact Proofs.stepKeepsTheInvariant s t hs h
  | tick | keySet | keyClear => cases h; exact hs

/-! ### Histories (R164) -/

/-- A history takes its first move and goes on from there. -/
theorem runMoves_cons {font : Font} {m : Move} {s t : State} (ms : List Move) (h : move font m s = .next t) :
    runMoves font (m :: ms) s = runMoves font ms t := by
  rw [runMoves, h]

/-- A history that answers a next state went through the one its first move answered. -/
theorem move_of_runMoves_cons {font : Font} {m : Move} {ms : List Move} {s u : State}
    (h : runMoves font (m :: ms) s = .next u) : ∃ t, move font m s = .next t ∧ runMoves font ms t = .next u := by
  rw [runMoves] at h
  split at h
  next t moved => exact ⟨t, moved, h⟩
  next => cases h
  next => cases h

/-- What every move keeps, every history keeps. -/
theorem runMoves_keeps {font : Font} {P : State → Prop}
    (moveKeeps : ∀ {m : Move} {s t : State}, P s → move font m s = .next t → P t) {ms : List Move} {s t : State}
    (hs : P s) (h : runMoves font ms s = .next t) : P t := by
  induction ms generalizing s with
  | nil => cases h; exact hs
  | cons m ms ih =>
    obtain ⟨u, moved, rest⟩ := move_of_runMoves_cons h
    exact ih (moveKeeps hs moved) rest

end Sys2Proof.Machine

namespace Sys2Proof.Proofs

open Sys2Proof.Machine

/-- Settles O45: every move keeps the invariant, so every history does. -/
theorem historiesKeepTheInvariant : Obligations.HistoriesKeepTheInvariant := fun _ _ _ _ hs h =>
  runMoves_keeps move_keeps_inv hs h

/-- Settles O8: every instruction answers a next state, also the one a step decodes. -/
theorem everyCycleCompletes : Obligations.EveryCycleCompletes := ⟨step_completes, exec_completes⟩

/-- Settles O46, by induction on the moves: each answers a next state, from which the others go on. -/
theorem historiesComplete : Obligations.HistoriesComplete := by
  intro font ms s fits
  induction ms generalizing s with
  | nil => exact ⟨s, rfl⟩
  | cons m ms ih =>
    obtain ⟨t, moved⟩ := move_completes font (fun image e => fits image (e ▸ List.mem_cons_self)) s
    rw [runMoves_cons ms moved]
    exact ih t fun image later => fits image (List.mem_cons_of_mem m later)

/-- Settles O47, by induction on the number of ticks. -/
theorem ticksCountDownToZero : Obligations.TicksCountDownToZero := by
  intro font n s
  induction n generalizing s with
  | zero => exact ⟨s, rfl, rfl, rfl, KeepsAllBut.refl _ s⟩
  | succ n ih =>
    obtain ⟨t, run, dt, st, frame⟩ := ih s.tick
    rw [State.toNat_tick_dt] at dt
    rw [State.toNat_tick_st] at st
    exact ⟨t, run, by omega, by omega, ((keepsAllBut_tick s).trans frame).mono (by simp)⟩

/-- Settles O54: the fetch clears the report, and only CALL and RET set it. -/
theorem reportTellsIgnoredCallsAndReturns : Obligations.ReportTellsIgnoredCallsAndReturns := by
  intro s t h
  rw [step_eq] at h
  split
  next nnn call => rw [call] at h; exact exec_call_report h
  next ret => rw [ret] at h; exact exec_ret_report h
  next not_call not_ret =>
    refine exec_keepsAllBut_writesFields h .report fun hm => ?_
    obtain ⟨nnn, call⟩ | ret := report_mem_writesFields hm
    · exact not_call nnn call
    · exact not_ret ret

/-- Settles O48: both moves write one key, and no instruction writes any. -/
theorem keyMovesChangeOneKey : Obligations.KeyMovesChangeOneKey := fun _ k s =>
  ⟨⟨_, rfl, s.writeKey_spec k true⟩, ⟨_, rfl, s.writeKey_spec k false⟩, fun _ h => step_key h⟩

/-- Settles O49: the readout is `ST` above 0, LD ST, Vx sets `ST` to `V[x]`, and a tick takes one from it. -/
theorem soundIsOnWhileStIsPositive : Obligations.SoundIsOnWhileStIsPositive := by
  refine ⟨State.sound_iff, fun x s t loaded => ?_, fun font s t ticked sounding => ?_⟩
  · cases loaded
    exact State.sound_iff _
  · cases ticked
    exact State.tick_sound_eq_false_iff sounding

end Sys2Proof.Proofs
end

section
/-! PROOFS. Reset, loading and hazards (70_reset_and_hazards.md). First what a load leaves in memory, then the jump to
its own address, whose cycle ends where it began. The obligations are then read off. -/

namespace Sys2Proof.Machine

/-! ### The load (R191, R192) -/

theorem State.load_of_fits (s : State) {image : List Byte} (fits : image.length ≤ 3584) :
    s.load image = s.setMem (s.mem.writeList 0x200 image) := if_pos fits

theorem State.load_of_oversize (s : State) {image : List Byte} (oversize : 3584 < image.length) : s.load image = s :=
  if_neg (Nat.not_le.mpr oversize)

theorem move_load_of_oversize (font : Font) {image : List Byte} (oversize : 3584 < image.length) (s : State) :
    move font (.load image) s = .refused .imageTooLarge := if_neg (Nat.not_le.mpr oversize)

/-- An image that fits is read back from 0x200 on. -/
theorem State.read_load (s : State) {image : List Byte} (fits : image.length ≤ 3584) {k : Nat}
    (hk : k < image.length) : (s.load image).mem.read (0x200 + k) = image[k] := by
  rw [s.load_of_fits fits, State.setMem_mem]
  exact Memory.read_writeList_inside s.mem 0x200 image (Nat.le_trans fits (by decide)) k hk

/-- With `pc` at 0x200 the first two bytes of an image just loaded are the word fetched next. -/
theorem State.fetchWord_load {s : State} {b0 b1 : Byte} {rest : List Byte} (fits : (b0 :: b1 :: rest).length ≤ 3584)
    (start : (s.load (b0 :: b1 :: rest)).pc = 0x200) :
    (s.load (b0 :: b1 :: rest)).fetchWord = wordOfBytes b0 b1 := by
  have high := s.read_load fits (k := 0) (by simp)
  have low := s.read_load fits (k := 1) (by simp)
  rw [State.fetchWord, start]
  exact congrArg₂ wordOfBytes high low

/-! ### The jump to its own address (R200) -/

/-- A jump to its own address answers what a stall does: `pc` back at the instruction. -/
theorem step_jumpToItself {nnn : Imm12} {s : State} (decoded : decodeWord s.fetchWord = .jp nnn)
    (self : s.pc.toNat = nnn.toNat) : step s = .next s.fetched.rewind := by
  have back : zext12 nnn = s.fetched.pc - 2 :=
    calc zext12 nnn = s.pc := BitVec.eq_of_toNat_eq ((toNat_zext12 nnn).trans self.symm)
      _ = s.fetched.pc - 2 := s.rewind_fetched_pc.symm
  rw [step_of_decodeWord decoded, State.rewind, ← back]
  rfl

end Sys2Proof.Machine

namespace Sys2Proof.Proofs

open Sys2Proof.Machine

/-- Settles O50: an image that fits is a list of bytes written from 0x200 on. -/
theorem loadCopiesTheImageOrIsRejected : Obligations.LoadCopiesTheImageOrIsRejected := by
  refine fun font image s => ⟨fun fits => ⟨_, move_load_of_fits font fits s, fun k hk => ?_, ?_⟩, fun oversize =>
    ⟨move_load_of_oversize font oversize s, s.load_of_oversize oversize⟩⟩
  · rw [s.read_load fits hk, List.getElem?_eq_getElem hk]
  · rw [s.load_of_fits fits]
    exact ⟨bytesKeptOutside_writeList s 0x200 image, keepsAllBut_setMem s _⟩

/-- Settles O51: the load keeps `pc` where the reset put it, at the image's first byte. -/
theorem firstCycleFetchesTheImage : Obligations.FirstCycleFetchesTheImage := by
  intro font b0 b1 rest s (fits : (b0 :: b1 :: rest).length ≤ 3584)
  have loaded := move_load_of_fits font fits (s.resetMove font)
  have start : ((s.resetMove font).load (b0 :: b1 :: rest)).pc = 0x200 := by
    rw [State.load_of_fits _ fits]; rfl
  have word := State.fetchWord_load fits start
  exact ⟨_, (runMoves_cons _ rfl).trans (runMoves_cons [] loaded), start, word, step_of_decodeWord (word ▸ rfl)⟩

/-- Settles O58, by induction on the number of steps: after one, the next instruction is the same jump. -/
theorem jumpToItselfIsFixed : Obligations.JumpToItselfIsFixed := by
  intro nnn s n decoded self
  induction n generalizing s with
  | zero => exact ⟨s, core_run_zero s, KeepsAllBut.refl _ s⟩
  | succ n ih =>
    obtain ⟨t, run, kept⟩ := ih s.fetched.rewind (by rwa [State.fetchWord_rewind_fetched])
      (by rwa [State.rewind_fetched_pc])
    have frame : KeepsAllBut [.opcode, .report] s t :=
      ((keepsAllBut_rewind_fetched s).trans kept).mono (by simp)
    exact ⟨t, (core_run_succ n (step_jumpToItself decoded self)).trans run, frame⟩

/-- Settles O52: the reset move differs from the reset state in one update, of `rng`. -/
theorem resetDiscardsAllState : Obligations.ResetDiscardsAllState := fun font s =>
  ⟨_, rfl, keepsAllBut_setRng (State.resetWith font) s.rng, rfl⟩

end Sys2Proof.Proofs
end
